-- ==== Sys2Proof/Word.lean ====
section
/-! DEFINITION. The word and byte types (00_scope.md R2, R4). -/

namespace Sys2Proof

/-- A 16-bit word: the content of a register or of a memory cell, and a memory address (R2, R4). -/
abbrev Word := BitVec 16

/-- A byte of the console channels (10_state.md R23, R25). -/
abbrev Byte := BitVec 8

end Sys2Proof
end

