-- ==== Sys2Proof/Config.lean ====
section
/-! DEFINITION. What the environment decides: the answers of the console input oracle (10_state.md R25). -/

namespace Sys2Proof

/-- What one call of `ConsoleIn` may give (10_state.md R25). -/
inductive ConsoleAnswer where
  /-- The call returns a byte. -/
  | byte (b : Byte)
  /-- The call returns the token `FAIL` (end of input, I/O failure). -/
  | fail
  /-- The call never returns: the core stays inside the step for ever (45_trap.md R129). -/
  | never
  deriving DecidableEq, Repr, Inhabited

/-- FREE VALUE (log 4). The answer to the call of `ConsoleIn` numbered `k` (the first of the run is 0) where the
state's `answers` fixes none. It has no body, so nothing can be proved of it: a claim holds whatever it is (00_scope.md R3). -/
opaque Config.consoleAnswer (k : Nat) : ConsoleAnswer

end Sys2Proof
end

