-- ==== Sys2Proof/Syntax.lean ====
section
/-! DEFINITION. The instruction set as syntax: one constructor per row of spec/opcode_table.json. -/

namespace Sys2Proof

/-- The eight general-purpose registers (10_state.md R10). -/
inductive Reg where
  | r0 | r1 | r2 | r3 | r4 | r5 | r6 | r7
  deriving DecidableEq, Repr

/-- An instruction: the fields of its word, every bit of it. `ign…` fields hold the bits the hardware ignores
(30_encoding.md R56; log 11): no effect depends on them, but `cause_info` records the whole word at a fatal stop
(10_state.md R20), and with them decoding loses nothing. -/
inductive Instr where
  /-- BR (42_control.md R90): condition bits n, z, p and PCoffset9. -/
  | br (n z p : Bool) (off : BitVec 9)
  /-- ADD, register form (41_alu.md R80). -/
  | addReg (dr sr1 sr2 : Reg) (ign : BitVec 2)
  /-- ADD, immediate form (41_alu.md R81). -/
  | addImm (dr sr1 : Reg) (imm : BitVec 5)
  /-- LD (43_load.md R100). -/
  | ld (dr : Reg) (off : BitVec 9)
  /-- ST (44_store.md R110). -/
  | st (sr : Reg) (off : BitVec 9)
  /-- JSRR (42_control.md R93); ignored bits `ir[10:9]` and `ir[5:0]`. -/
  | jsrr (base : Reg) (ignHi : BitVec 2) (ignLo : BitVec 6)
  /-- JSR (42_control.md R92). -/
  | jsr (off : BitVec 11)
  /-- AND, register form (41_alu.md R82). -/
  | andReg (dr sr1 sr2 : Reg) (ign : BitVec 2)
  /-- AND, immediate form (41_alu.md R83). -/
  | andImm (dr sr1 : Reg) (imm : BitVec 5)
  /-- LDR (43_load.md R102). -/
  | ldr (dr base : Reg) (off : BitVec 6)
  /-- STR (44_store.md R112). -/
  | str (sr base : Reg) (off : BitVec 6)
  /-- RTI, a reserved opcode (46_reserved.md R140). -/
  | rti (ign : BitVec 12)
  /-- NOT (41_alu.md R84). -/
  | not (dr sr : Reg) (ign : BitVec 6)
  /-- LDI (43_load.md R101). -/
  | ldi (dr : Reg) (off : BitVec 9)
  /-- STI (44_store.md R111). -/
  | sti (sr : Reg) (off : BitVec 9)
  /-- JMP (42_control.md R91); ignored bits `ir[11:9]` and `ir[5:0]`. -/
  | jmp (base : Reg) (ignHi : BitVec 3) (ignLo : BitVec 6)
  /-- RES, a reserved opcode (46_reserved.md R141). -/
  | res (ign : BitVec 12)
  /-- LEA (43_load.md R103). -/
  | lea (dr : Reg) (off : BitVec 9)
  /-- TRAP, the general row (45_trap.md R120, R127): a word decodes to it when no service row takes the vector (R62). -/
  | trap (ign : BitVec 4) (vect : BitVec 8)
  /-- TRAP x20, GETC (45_trap.md R121). -/
  | getc (ign : BitVec 4)
  /-- TRAP x21, OUT (45_trap.md R122). -/
  | out (ign : BitVec 4)
  /-- TRAP x22, PUTS (45_trap.md R123). -/
  | puts (ign : BitVec 4)
  /-- TRAP x23, IN (45_trap.md R124). -/
  | inp (ign : BitVec 4)
  /-- TRAP x24, PUTSP (45_trap.md R125). -/
  | putsp (ign : BitVec 4)
  /-- TRAP x25, HALT (45_trap.md R126). -/
  | halt (ign : BitVec 4)
  deriving DecidableEq, Repr

/-- The rows of spec/opcode_table.json by name, in the table's order (30_encoding.md R62). -/
inductive Row where
  | br | addReg | addImm | ld | st | jsrr | jsr | andReg | andImm | ldr | str | rti | not | ldi | sti | jmp | res
  | lea | trap | getc | out | puts | inp | putsp | halt
  deriving DecidableEq, Repr

/-- The row an instruction belongs to. -/
def Instr.row : Instr → Row
  | .br _ _ _ _ => .br
  | .addReg _ _ _ _ => .addReg
  | .addImm _ _ _ => .addImm
  | .ld _ _ => .ld
  | .st _ _ => .st
  | .jsrr _ _ _ => .jsrr
  | .jsr _ => .jsr
  | .andReg _ _ _ _ => .andReg
  | .andImm _ _ _ => .andImm
  | .ldr _ _ _ => .ldr
  | .str _ _ _ => .str
  | .rti _ => .rti
  | .not _ _ _ => .not
  | .ldi _ _ => .ldi
  | .sti _ _ => .sti
  | .jmp _ _ _ => .jmp
  | .res _ => .res
  | .lea _ _ => .lea
  | .trap _ _ => .trap
  | .getc _ => .getc
  | .out _ => .out
  | .puts _ => .puts
  | .inp _ => .inp
  | .putsp _ => .putsp
  | .halt _ => .halt

end Sys2Proof
end

