-- ==== Sys2Proof/Machine/Defaults.lean ====
section
/-! DEFINITION. The values at reset that the spec leaves to a parameter (00_scope.md R3), named once each. -/

namespace Sys2Proof.Machine

/-- What a memory cell that no entry lists reads as (DESIGN CHOICE, unsafe for claims about the reset memory only;
log 2): the spec's MEM_INIT has no value outside the image (10_state.md R24). -/
def unlistedCell : Word := 0x0000#16

/-- GPR_RESET in `State.reset` (DESIGN CHOICE, unsafe; log 1): the spec gives no value (10_state.md R13, R24).
`State.resetWith` takes any other. -/
def resetGpr (_r : Reg) : Word := 0x0000#16

/-- IN_PROMPT in `State.reset` (DESIGN CHOICE, log 7): the default of 00_scope.md table T-R3, "Enter a character: ",
19 bytes. -/
def resetInPrompt : List Byte :=
  [0x45#8, 0x6E#8, 0x74#8, 0x65#8, 0x72#8, 0x20#8, 0x61#8, 0x20#8, 0x63#8, 0x68#8, 0x61#8, 0x72#8, 0x61#8, 0x63#8,
    0x74#8, 0x65#8, 0x72#8, 0x3A#8, 0x20#8]

/-- HALT_NOTICE in `State.reset` (DESIGN CHOICE, log 7): the default of 00_scope.md table T-R3, "HALT" and a line feed. -/
def resetHaltNotice : List Byte := [0x48#8, 0x41#8, 0x4C#8, 0x54#8, 0x0A#8]

end Sys2Proof.Machine
end

