-- ==== Sys2Proof/Machine/State.lean ====
section
/-! DEFINITION. The state of the machine as plain data, how a step can stop, and the state after reset (10_state.md). -/

namespace Sys2Proof.Machine

/-- The eight general-purpose registers, 16 bits each (10_state.md R10). -/
structure RegFile where
  r0 : Word
  r1 : Word
  r2 : Word
  r3 : Word
  r4 : Word
  r5 : Word
  r6 : Word
  r7 : Word
  deriving DecidableEq, Repr

/-- The condition flags: exactly one of three states at any time (10_state.md R16, R17; log 10). -/
inductive Cond where
  | positive | zero | negative
  deriving DecidableEq, Repr

/-- The run flag (10_state.md R19). -/
inductive RunFlag where
  | running | halted
  deriving DecidableEq, Repr

/-- The stop reason (10_state.md R20, 60_exceptions.md T-R151). -/
inductive Cause where
  | none | haltTrap | reservedOpcode | unknownTrapVector | consoleInputFailure
  deriving DecidableEq, Repr

/-- The 65,536 cells of 16 bits (20_memory.md R30) as pairs of an address and a cell's content: addresses strictly
rising, no entry equal to what an unlisted cell reads as (`Memory.wf`, log 2 and log 3). -/
abbrev Memory := List (Nat × Word)

/-- Everything the spec gives the machine. -/
structure State where
  /-- R0 to R7 (R10). -/
  regs : RegFile
  /-- The program counter (R14). -/
  pc : Word
  /-- The condition flags (R16). -/
  cond : Cond
  /-- The memory (20_memory.md R30). -/
  mem : Memory
  /-- RUNNING or HALTED (R19). -/
  run : RunFlag
  /-- The stop reason (R20). -/
  cause : Cause
  /-- The word recorded with the stop reason (R20). -/
  causeInfo : Word
  /-- The console output trace, first byte first (R23). -/
  out : List Byte
  /-- How many calls of `ConsoleIn` have returned since reset (R24, R25). -/
  inputPos : Nat
  /-- The parameter IN_PROMPT (00_scope.md R3); no step changes it (log 7). -/
  inPrompt : List Byte
  /-- The parameter HALT_NOTICE (00_scope.md R3); no step changes it (log 7). -/
  haltNotice : List Byte
  /-- What the environment has fixed of the oracle `ConsoleIn`: the answers to calls 0, 1, 2, …; later calls take the
  free value `Config.consoleAnswer` (00_scope.md R3, R25; log 4). No step changes it. -/
  answers : List ConsoleAnswer
  deriving DecidableEq, Repr

/-- Why the machine has no next state. -/
inductive Fault where
  /-- Raised by `step` when `run = HALTED`: HALTED has no step (40_cycle.md R70, R75; log 8). Safe. -/
  | notRunning (cause : Cause)
  /-- Raised by GETC and IN when the call of `ConsoleIn` never returns: the core stays inside the step for ever
  (45_trap.md R129, decision D25; log 5). `stuck` is the state it stays in. Safe. -/
  | consoleInputNeverReturns (stuck : State)
  /-- Raised by PUTS and PUTSP when no cell of memory is zero: the scan never ends, and the core, not HALTED, stays inside
the step for ever (45_trap.md R129; log 6). `stuck` is the state the scan begins in, with R7 written; `turn` is what each
pass over the 65,536 cells appends to its `out`, again and again. Safe. -/
  | stringScanNeverEnds (stuck : State) (turn : List Byte)
  deriving DecidableEq, Repr

/-- Why the model gives no meaning. -/
inductive Refusal where
  /-- Raised by `exec` alone, for an instruction without a meaning; no instruction of this model is left so. Safe. -/
  | notModelled (mnemonic : String)
  /-- Raised by the loader boundary alone: an image that runs past cell 0xFFFF (70_reset_and_hazards.md R171,
  decision D20; log 15). Safe. -/
  | imageDoesNotFit
  deriving DecidableEq, Repr

/-- What executing an instruction answers. -/
abbrev Result := Host.Outcome State Fault Refusal

/-- Reset for given values of the parameters GPR_RESET, MEM_INIT, IN_PROMPT, HALT_NOTICE and of the answers fixed for
`ConsoleIn` (00_scope.md R3, 10_state.md R24, 70_reset_and_hazards.md R170). -/
def State.resetWith (gpr : RegFile) (memInit : Memory) (inPrompt haltNotice : List Byte)
    (answers : List ConsoleAnswer) : State where
  regs := gpr
  pc := 0x3000#16
  cond := .zero
  mem := memInit
  run := .running
  cause := .none
  causeInfo := 0x0000#16
  out := []
  inputPos := 0
  inPrompt := inPrompt
  haltNotice := haltNotice
  answers := answers

/-- The machine right after reset, with no image placed and the parameters at the values Machine/Defaults.lean names
(10_state.md T-R24; log 1, log 2, log 4, log 7). -/
def State.reset : State :=
  State.resetWith
    ⟨resetGpr .r0, resetGpr .r1, resetGpr .r2, resetGpr .r3, resetGpr .r4, resetGpr .r5, resetGpr .r6, resetGpr .r7⟩
    [] resetInPrompt resetHaltNotice []

end Sys2Proof.Machine
end

