-- ==== Sys2Proof/Machine/Ops.lean ====
section
/-! DEFINITION. The named operations over registers, memory, the fetch, the stop and the trap entry. -/

namespace Sys2Proof.Machine

/-- Read of a general-purpose register (00_scope.md T-R7 `x[i]`). -/
def RegFile.read (f : RegFile) : Reg → Word
  | .r0 => f.r0
  | .r1 => f.r1
  | .r2 => f.r2
  | .r3 => f.r3
  | .r4 => f.r4
  | .r5 => f.r5
  | .r6 => f.r6
  | .r7 => f.r7

/-- Write of a general-purpose register (00_scope.md T-R7 `x[i] <- v`). No register is hardwired (10_state.md R10). -/
def RegFile.write (f : RegFile) (r : Reg) (v : Word) : RegFile :=
  match r with
  | .r0 => { f with r0 := v }
  | .r1 => { f with r1 := v }
  | .r2 => { f with r2 := v }
  | .r3 => { f with r3 := v }
  | .r4 => { f with r4 := v }
  | .r5 => { f with r5 := v }
  | .r6 => { f with r6 := v }
  | .r7 => { f with r7 := v }

/-- The content of cell `a` (20_memory.md R31). The list is in rising order of addresses. -/
def Memory.readAt (m : Memory) (a : Nat) : Word :=
  match m with
  | [] => unlistedCell
  | (k, v) :: rest => if k < a then Memory.readAt rest a else if k = a then v else unlistedCell

/-- Cell `a` becomes `v` (20_memory.md R32), keeping the canonical form: a cell that holds what an unlisted one reads as
is not listed. -/
def Memory.writeAt (m : Memory) (a : Nat) (v : Word) : Memory :=
  match m with
  | [] => if v = unlistedCell then [] else [(a, v)]
  | (k, u) :: rest =>
    if k < a then (k, u) :: Memory.writeAt rest a v
    else if k = a then (if v = unlistedCell then rest else (a, v) :: rest)
    else if v = unlistedCell then (k, u) :: rest else (a, v) :: (k, u) :: rest

/-- Every address listed lies from `lo` up and below 65,536, addresses strictly rise, and no entry holds what an
unlisted cell reads as. -/
def Memory.wfFrom (lo : Nat) : Memory → Bool
  | [] => true
  | (k, v) :: rest => decide (lo ≤ k) && decide (k < 65536) && (v != unlistedCell) && Memory.wfFrom (k + 1) rest

/-- The canonical form of memory (log 2, log 3). -/
def Memory.wf (m : Memory) : Bool := Memory.wfFrom 0 m

/-- `MemRead(a, 16)` on a memory (20_memory.md R31). -/
def Memory.read (m : Memory) (a : Word) : Word := m.readAt a.toNat

/-- `MemWrite(a, 16, v)` on a memory (20_memory.md R32). -/
def Memory.write (m : Memory) (a v : Word) : Memory := m.writeAt a.toNat v

/-- `x[r]`. -/
def State.readReg (s : State) (r : Reg) : Word := s.regs.read r

/-- `x[r] <- v`: the plain write, which does not touch COND (10_state.md R12). -/
def State.writeReg (s : State) (r : Reg) (v : Word) : State := { s with regs := s.regs.write r v }

/-- `MemRead(a, 16)` (20_memory.md R31): total, no side effect, every address (R38). -/
def State.readMem (s : State) (a : Word) : Word := s.mem.read a

/-- `MemWrite(a, 16, v)` (20_memory.md R32): total, every address (R38). -/
def State.writeMem (s : State) (a v : Word) : State := { s with mem := s.mem.write a v }

/-- `pc <- t` (00_scope.md T-R7). -/
def State.setPc (s : State) (t : Word) : State := { s with pc := t }

/-- The word the next step fetches (40_cycle.md R71). -/
def State.fetchWord (s : State) : Word := s.readMem s.pc

/-- The state after the fetch: `pc <- pc + 1` modulo 65,536, before decode (40_cycle.md R71, 10_state.md R14, R15). -/
def State.afterFetch (s : State) : State := s.setPc (s.pc + 1#16)

/-- An instruction word placed where the next step fetches, in a running machine (log 15). It stands for the loader's
placing it (70_reset_and_hazards.md R171), no move of the machine. -/
def State.placeWord (s : State) (w : Word) : State :=
  { s.writeMem s.pc w with run := .running, cause := .none, causeInfo := 0x0000#16 }

/-- The numeric code of a stop reason (10_state.md R20, 60_exceptions.md T-R151). -/
def Cause.code : Cause → Nat
  | .none => 0
  | .haltTrap => 1
  | .reservedOpcode => 2
  | .unknownTrapVector => 3
  | .consoleInputFailure => 4

/-- A stop: `run <- HALTED; cause <- c; cause_info <- info`, nothing else (60_exceptions.md R150). It is the `raise` of
the fatal conditions, and the last three assignments of the HALT service (45_trap.md R126). -/
def State.stop (s : State) (c : Cause) (info : Word) : State :=
  { s with run := .halted, cause := c, causeInfo := info }

/-- Taking a trap (60_exceptions.md R155, 45_trap.md R120): the incremented PC is saved in R7 by a plain write; nothing
else is saved, no mode, mask or PC changes. -/
def State.trapEnter (s : State) : State := s.writeReg .r7 s.pc

/-- Leaving a trap (60_exceptions.md R156): the service simply ends, with PC still the address after the TRAP; R7 is not
restored and nothing is re-enabled. -/
def trapReturn (s : State) : Result := .next s

end Sys2Proof.Machine
end

