-- ==== Sys2Proof/Machine/Flags.lean ====
section
/-! DEFINITION. The condition flags: `setcc`, the flag-updating register write, the branch test (10_state.md R16 to
R18). -/

namespace Sys2Proof.Machine

/-- `setcc(v)`: ZERO if `v = 0`, else NEGATIVE if bit 15 is 1, else POSITIVE (10_state.md R16). -/
def condOf (v : Word) : Cond :=
  if v = 0x0000#16 then .zero else if v.getLsbD 15 then .negative else .positive

/-- `set_and_flag`: write the register, then update COND from the written value (10_state.md R12, R18). -/
def State.setAndFlag (s : State) (r : Reg) (v : Word) : State := { s.writeReg r v with cond := condOf v }

/-- The numeric form of COND (10_state.md R17; log 10). -/
def Cond.toWord : Cond → Word
  | .positive => 0x0001#16
  | .zero => 0x0002#16
  | .negative => 0x0004#16

/-- BR's test (42_control.md R90): the mask bit of the present state of COND. -/
def branchTaken (n z p : Bool) (c : Cond) : Bool :=
  match c with
  | .negative => n
  | .zero => z
  | .positive => p

end Sys2Proof.Machine
end

