-- ==== Sys2Proof/Machine/Operands.lean ====
section
/-! DEFINITION. Operand forms: sign and zero extension (00_scope.md R6) and the addressing modes (43_load.md R104). -/

namespace Sys2Proof.Machine

/-- `sext_16(f)` by the spec's rule (00_scope.md R6): where the field's highest bit is 1, OR the field with a mask that
sets all bits above the field; otherwise the field with zeros above it. -/
def sext16 {n : Nat} (f : BitVec n) : Word :=
  if f.msb then f.setWidth 16 ||| (0xFFFF#16 &&& ~~~(BitVec.ofNat 16 (2 ^ n - 1))) else f.setWidth 16

/-- `zext_16(b)` (00_scope.md R6): the byte in bits 7:0, zeros in bits 15:8. -/
def zext16 (b : Byte) : Word := b.setWidth 16

/-- Bits 7:0 of a word. -/
def lowByte (w : Word) : Byte := w.extractLsb' 0 8

/-- Bits 15:8 of a word. -/
def highByte (w : Word) : Byte := w.extractLsb' 8 8

/-- The PC-relative address `pc + sext_16(off)` modulo 65,536, `pc` being the incremented PC (43_load.md R104,
42_control.md R90, R92). -/
def State.pcRelative {n : Nat} (s : State) (off : BitVec n) : Word := s.pc + sext16 off

/-- The indirect address: the word held by the cell at the PC-relative address (43_load.md R101, R104). -/
def State.indirect {n : Nat} (s : State) (off : BitVec n) : Word := s.readMem (s.pcRelative off)

/-- The base-plus-offset address `x[base] + sext_16(off)` modulo 65,536 (43_load.md R102, R104). -/
def State.basePlus {n : Nat} (s : State) (base : Reg) (off : BitVec n) : Word := s.readReg base + sext16 off

end Sys2Proof.Machine
end

