-- ==== Sys2Proof/Machine/Alu.lean ====
section
/-! DEFINITION. ADD, AND, NOT (41_alu.md). -/

namespace Sys2Proof.Machine

/-- ADD, register form (41_alu.md R80): both sources are read before DR is written. -/
def execAddReg (dr sr1 sr2 : Reg) (s : State) : Result :=
  .next (s.setAndFlag dr (s.readReg sr1 + s.readReg sr2))

/-- ADD, immediate form (41_alu.md R81). -/
def execAddImm (dr sr1 : Reg) (imm : BitVec 5) (s : State) : Result :=
  .next (s.setAndFlag dr (s.readReg sr1 + sext16 imm))

/-- AND, register form (41_alu.md R82). -/
def execAndReg (dr sr1 sr2 : Reg) (s : State) : Result :=
  .next (s.setAndFlag dr (s.readReg sr1 &&& s.readReg sr2))

/-- AND, immediate form (41_alu.md R83): the immediate is sign-extended first. -/
def execAndImm (dr sr1 : Reg) (imm : BitVec 5) (s : State) : Result :=
  .next (s.setAndFlag dr (s.readReg sr1 &&& sext16 imm))

/-- NOT (41_alu.md R84). -/
def execNot (dr sr : Reg) (s : State) : Result :=
  .next (s.setAndFlag dr (~~~(s.readReg sr)))

end Sys2Proof.Machine
end

