-- ==== Sys2Proof/Machine/Control.lean ====
section
/-! DEFINITION. BR, JMP, JSR, JSRR (42_control.md). -/

namespace Sys2Proof.Machine

/-- BR (42_control.md R90): when not taken, `pc` keeps the incremented value. -/
def execBr (n z p : Bool) (off : BitVec 9) (s : State) : Result :=
  .next (if branchTaken n z p s.cond then s.setPc (s.pcRelative off) else s)

/-- JMP (42_control.md R91). -/
def execJmp (base : Reg) (s : State) : Result := .next (s.setPc (s.readReg base))

/-- JSR (42_control.md R92): R7 takes the incremented PC, the target is relative to it. -/
def execJsr (off : BitVec 11) (s : State) : Result := .next ((s.writeReg .r7 s.pc).setPc (s.pcRelative off))

/-- JSRR (42_control.md R93): R7 is written first, the base is read after that, so `JSRR R7` falls through. -/
def execJsrr (base : Reg) (s : State) : Result :=
  let linked := s.writeReg .r7 s.pc
  .next (linked.setPc (linked.readReg base))

end Sys2Proof.Machine
end

