-- ==== Sys2Proof/Machine/Load.lean ====
section
/-! DEFINITION. LD, LDI, LDR, LEA (43_load.md). -/

namespace Sys2Proof.Machine

/-- LD (43_load.md R100). -/
def execLd (dr : Reg) (off : BitVec 9) (s : State) : Result :=
  .next (s.setAndFlag dr (s.readMem (s.pcRelative off)))

/-- LDI (43_load.md R101): the pointer is read first, then the data. -/
def execLdi (dr : Reg) (off : BitVec 9) (s : State) : Result :=
  .next (s.setAndFlag dr (s.readMem (s.indirect off)))

/-- LDR (43_load.md R102): the base is read before DR is written. -/
def execLdr (dr base : Reg) (off : BitVec 6) (s : State) : Result :=
  .next (s.setAndFlag dr (s.readMem (s.basePlus base off)))

/-- LEA (43_load.md R103): the address itself, with a flag update; memory is not accessed. -/
def execLea (dr : Reg) (off : BitVec 9) (s : State) : Result :=
  .next (s.setAndFlag dr (s.pcRelative off))

end Sys2Proof.Machine
end

