-- ==== Sys2Proof/WellFormed.lean ====
section
/-! DEFINITION. Which instruction terms stand for the row a word decodes to. Field widths are in the types; the one
check left is the TRAP row's vector. -/

namespace Sys2Proof

/-- The six defined trap vectors (30_encoding.md R58). -/
def isServiceVector (v : BitVec 8) : Bool :=
  v == 0x20#8 || v == 0x21#8 || v == 0x22#8 || v == 0x23#8 || v == 0x24#8 || v == 0x25#8

/-- A term is well formed unless it is the general TRAP row with a vector that a service row takes (30_encoding.md
R62: such a word resolves to the service row; log 12). -/
def Instr.WellFormed : Instr → Bool
  | .trap _ v => !isServiceVector v
  | _ => true

end Sys2Proof
end

