-- ==== Sys2Proof/Decode.lean ====
section
/-! DEFINITION. Decoding and encoding (30_encoding.md). Opcode values and field positions are the spec's adoption of the
family's encoding (R52, R53, R55, decision D2; log 9). -/

namespace Sys2Proof

/-- The register a 3-bit index selects (10_state.md R10). -/
def Reg.ofBits (b : BitVec 3) : Reg :=
  match b with
  | 0#3 => .r0
  | 1#3 => .r1
  | 2#3 => .r2
  | 3#3 => .r3
  | 4#3 => .r4
  | 5#3 => .r5
  | 6#3 => .r6
  | _ => .r7

/-- The 3-bit index of a register. -/
def Reg.toBits : Reg → BitVec 3
  | .r0 => 0#3
  | .r1 => 1#3
  | .r2 => 2#3
  | .r3 => 3#3
  | .r4 => 4#3
  | .r5 => 5#3
  | .r6 => 6#3
  | .r7 => 7#3

/-- The slice of `n` bits of `w` whose lowest bit is `lo` (00_scope.md R4). -/
def slice (w : Word) (lo n : Nat) : BitVec n := w.extractLsb' lo n

/-- The register named by the 3 bits of `w` from bit `lo` up (30_encoding.md R52). -/
def regField (w : Word) (lo : Nat) : Reg := Reg.ofBits (slice w lo 3)

/-- A TRAP word by its vector (30_encoding.md R58, R62): a service row where one takes the vector, else the TRAP row. -/
def decodeTrap (ign : BitVec 4) (v : BitVec 8) : Instr :=
  match v with
  | 0x20#8 => .getc ign
  | 0x21#8 => .out ign
  | 0x22#8 => .puts ign
  | 0x23#8 => .inp ign
  | 0x24#8 => .putsp ign
  | 0x25#8 => .halt ign
  | v => .trap ign v

/-- The decoder (40_cycle.md R72, 30_encoding.md R51): total, pure, no word is refused. The last arm is opcode 1111. -/
def decode (w : Word) : Instr :=
  match slice w 12 4 with
  | 0x0#4 => .br (w.getLsbD 11) (w.getLsbD 10) (w.getLsbD 9) (slice w 0 9)
  | 0x1#4 =>
    if w.getLsbD 5 then .addImm (regField w 9) (regField w 6) (slice w 0 5)
    else .addReg (regField w 9) (regField w 6) (regField w 0) (slice w 3 2)
  | 0x2#4 => .ld (regField w 9) (slice w 0 9)
  | 0x3#4 => .st (regField w 9) (slice w 0 9)
  | 0x4#4 =>
    if w.getLsbD 11 then .jsr (slice w 0 11)
    else .jsrr (regField w 6) (slice w 9 2) (slice w 0 6)
  | 0x5#4 =>
    if w.getLsbD 5 then .andImm (regField w 9) (regField w 6) (slice w 0 5)
    else .andReg (regField w 9) (regField w 6) (regField w 0) (slice w 3 2)
  | 0x6#4 => .ldr (regField w 9) (regField w 6) (slice w 0 6)
  | 0x7#4 => .str (regField w 9) (regField w 6) (slice w 0 6)
  | 0x8#4 => .rti (slice w 0 12)
  | 0x9#4 => .not (regField w 9) (regField w 6) (slice w 0 6)
  | 0xA#4 => .ldi (regField w 9) (slice w 0 9)
  | 0xB#4 => .sti (regField w 9) (slice w 0 9)
  | 0xC#4 => .jmp (regField w 6) (slice w 9 3) (slice w 0 6)
  | 0xD#4 => .res (slice w 0 12)
  | 0xE#4 => .lea (regField w 9) (slice w 0 9)
  | _ => decodeTrap (slice w 8 4) (slice w 0 8)

/-- The word of a TRAP with ignored bits `ign` and vector `v` (30_encoding.md T-R53). -/
def trapWord (ign : BitVec 4) (v : BitVec 8) : Word := 0xF#4 ++ ign ++ v

/-- The word of an RTI (30_encoding.md T-R53). -/
def rtiWord (ign : BitVec 12) : Word := 0x8#4 ++ ign

/-- The word of a RES (30_encoding.md T-R53). -/
def resWord (ign : BitVec 12) : Word := 0xD#4 ++ ign

/-- The encoder, written from the patterns of 30_encoding.md T-R53, bit 15 first. -/
def encode : Instr → Word
  | .br n z p off => 0x0#4 ++ BitVec.ofBool n ++ BitVec.ofBool z ++ BitVec.ofBool p ++ off
  | .addReg dr sr1 sr2 ign => 0x1#4 ++ dr.toBits ++ sr1.toBits ++ 0#1 ++ ign ++ sr2.toBits
  | .addImm dr sr1 imm => 0x1#4 ++ dr.toBits ++ sr1.toBits ++ 1#1 ++ imm
  | .ld dr off => 0x2#4 ++ dr.toBits ++ off
  | .st sr off => 0x3#4 ++ sr.toBits ++ off
  | .jsrr base ignHi ignLo => 0x4#4 ++ 0#1 ++ ignHi ++ base.toBits ++ ignLo
  | .jsr off => 0x4#4 ++ 1#1 ++ off
  | .andReg dr sr1 sr2 ign => 0x5#4 ++ dr.toBits ++ sr1.toBits ++ 0#1 ++ ign ++ sr2.toBits
  | .andImm dr sr1 imm => 0x5#4 ++ dr.toBits ++ sr1.toBits ++ 1#1 ++ imm
  | .ldr dr base off => 0x6#4 ++ dr.toBits ++ base.toBits ++ off
  | .str sr base off => 0x7#4 ++ sr.toBits ++ base.toBits ++ off
  | .rti ign => rtiWord ign
  | .not dr sr ign => 0x9#4 ++ dr.toBits ++ sr.toBits ++ ign
  | .ldi dr off => 0xA#4 ++ dr.toBits ++ off
  | .sti sr off => 0xB#4 ++ sr.toBits ++ off
  | .jmp base ignHi ignLo => 0xC#4 ++ ignHi ++ base.toBits ++ ignLo
  | .res ign => resWord ign
  | .lea dr off => 0xE#4 ++ dr.toBits ++ off
  | .trap ign v => trapWord ign v
  | .getc ign => trapWord ign 0x20#8
  | .out ign => trapWord ign 0x21#8
  | .puts ign => trapWord ign 0x22#8
  | .inp ign => trapWord ign 0x23#8
  | .putsp ign => trapWord ign 0x24#8
  | .halt ign => trapWord ign 0x25#8

/-- The mask of a row of spec/opcode_table.json (30_encoding.md T-R53, R62): a 1 where the row fixes the bit. -/
def Row.mask : Row → Word
  | .addReg | .addImm | .andReg | .andImm => 0xF020#16
  | .jsrr | .jsr => 0xF800#16
  | .getc | .out | .puts | .inp | .putsp | .halt => 0xF0FF#16
  | .br | .ld | .st | .ldr | .str | .rti | .not | .ldi | .sti | .jmp | .res | .lea | .trap => 0xF000#16

/-- The match value of a row (30_encoding.md T-R53, R62). -/
def Row.pattern : Row → Word
  | .br => 0x0000#16
  | .addReg => 0x1000#16
  | .addImm => 0x1020#16
  | .ld => 0x2000#16
  | .st => 0x3000#16
  | .jsrr => 0x4000#16
  | .jsr => 0x4800#16
  | .andReg => 0x5000#16
  | .andImm => 0x5020#16
  | .ldr => 0x6000#16
  | .str => 0x7000#16
  | .rti => 0x8000#16
  | .not => 0x9000#16
  | .ldi => 0xA000#16
  | .sti => 0xB000#16
  | .jmp => 0xC000#16
  | .res => 0xD000#16
  | .lea => 0xE000#16
  | .trap => 0xF000#16
  | .getc => 0xF020#16
  | .out => 0xF021#16
  | .puts => 0xF022#16
  | .inp => 0xF023#16
  | .putsp => 0xF024#16
  | .halt => 0xF025#16

/-- The bits of a row's words that the hardware ignores (30_encoding.md R56), a 1 where the bit is ignored. -/
def Row.ignored : Row → Word
  | .addReg | .andReg => 0x0018#16
  | .not => 0x003F#16
  | .jmp => 0x0E3F#16
  | .jsrr => 0x063F#16
  | .trap | .getc | .out | .puts | .inp | .putsp | .halt => 0x0F00#16
  | .rti | .res => 0x0FFF#16
  | .br | .addImm | .ld | .st | .jsr | .andImm | .ldr | .str | .ldi | .sti | .lea => 0x0000#16

/-- The priority of a row: how many bits its mask fixes (30_encoding.md R62; the table's own numbers). -/
def Row.priority : Row → Nat
  | .addReg | .addImm | .andReg | .andImm | .jsrr | .jsr => 5
  | .getc | .out | .puts | .inp | .putsp | .halt => 12
  | .br | .ld | .st | .ldr | .str | .rti | .not | .ldi | .sti | .jmp | .res | .lea | .trap => 4

/-- A word matches a row when `w & mask = match` (30_encoding.md R53). -/
def Row.matchesWord (r : Row) (w : Word) : Bool := w &&& r.mask == r.pattern

/-- The nineteen encodings of 30_encoding.md T-R53, in the table's order. -/
def encodingRows : List Row :=
  [.br, .addReg, .addImm, .ld, .st, .jsrr, .jsr, .andReg, .andImm, .ldr, .str, .rti, .not, .ldi, .sti, .jmp, .res, .lea,
    .trap]

/-- The six trap-service rows (30_encoding.md R62). -/
def serviceRows : List Row := [.getc, .out, .puts, .inp, .putsp, .halt]

/-- The better of two candidate rows: the one of higher priority. -/
def Row.better (best : Option Row) (r : Row) : Option Row :=
  match best with
  | none => some r
  | some b => if b.priority < r.priority then some r else some b

/-- The row the table alone gives a word: among the rows it matches, the one of highest priority (30_encoding.md R62). -/
def rowOfWord (w : Word) : Option Row :=
  ((encodingRows ++ serviceRows).filter (fun r => r.matchesWord w)).foldl Row.better none

/-- The host's question: the instruction the decoder reads from an instruction word given as `nbits` bits of value `w`.
Every instruction is one 16-bit word (30_encoding.md R50), so a longer row is refused; bits above `nbits` are 0. -/
def decodeTableWord (nbits w : Nat) : Option Instr :=
  if nbits ≤ 16 then some (decode (BitVec.ofNat 16 (w % 2 ^ nbits))) else none

end Sys2Proof
end

