-- ==== Sys2Proof/Machine/Reserved.lean ====
section
/-! DEFINITION. The reserved opcodes RTI and RES (46_reserved.md): fatal stops. -/

namespace Sys2Proof.Machine

/-- RTI (46_reserved.md R140, 60_exceptions.md R153): no return semantics, the fatal stop RESERVED_OPCODE. -/
def execRti (ign : BitVec 12) (s : State) : Result := .next (s.stop .reservedOpcode (rtiWord ign))

/-- RES (46_reserved.md R141). -/
def execRes (ign : BitVec 12) (s : State) : Result := .next (s.stop .reservedOpcode (resWord ign))

end Sys2Proof.Machine
end

