-- ==== Sys2Proof/Machine/Store.lean ====
section
/-! DEFINITION. ST, STI, STR (44_store.md). -/

namespace Sys2Proof.Machine

/-- ST (44_store.md R110). -/
def execSt (sr : Reg) (off : BitVec 9) (s : State) : Result :=
  .next (s.writeMem (s.pcRelative off) (s.readReg sr))

/-- STI (44_store.md R111): the pointer is read before the cell it names is written (20_memory.md R37). -/
def execSti (sr : Reg) (off : BitVec 9) (s : State) : Result :=
  .next (s.writeMem (s.indirect off) (s.readReg sr))

/-- STR (44_store.md R112). -/
def execStr (sr base : Reg) (off : BitVec 6) (s : State) : Result :=
  .next (s.writeMem (s.basePlus base off) (s.readReg sr))

end Sys2Proof.Machine
end

