-- ==== Sys2Proof/Machine/Console.lean ====
section
/-! DEFINITION. The console channels (10_state.md R23, R25) and the string scan of PUTS and PUTSP (45_trap.md R123,
R125, R129). -/

namespace Sys2Proof.Machine

/-- `ConsoleOut` of the bytes of a list, in order: each is appended to `out`; it always succeeds (10_state.md R23;
log 13). -/
def State.consoleOut (s : State) (bs : List Byte) : State := { s with out := s.out ++ bs }

/-- What the next call of `ConsoleIn` gives: the answer the environment fixed for it, else a free value (10_state.md R25;
log 4). -/
def State.nextAnswer (s : State) : ConsoleAnswer :=
  match s.answers[s.inputPos]? with
  | some a => a
  | none => Config.consoleAnswer s.inputPos

/-- The state once the call of `ConsoleIn` has returned: one more call made, nothing else changed (10_state.md R24, R25). -/
def State.answered (s : State) : State := { s with inputPos := s.inputPos + 1 }

/-- How many cells memory has (20_memory.md R30). -/
def cellCount : Nat := 65536

/-- The scan of PUTS and PUTSP from cell `a`: the bytes of each cell up to, not including, the first zero cell, reading
at most `fuel` cells; the address wraps. `none`: none of the cells read was zero. -/
def scanString (bytesOf : Word → List Byte) (m : Memory) (fuel : Nat) (a : Word) : Option (List Byte) :=
  match fuel with
  | 0 => none
  | k + 1 =>
    if m.read a = 0x0000#16 then some []
    else (scanString bytesOf m k (a + 1#16)).map (fun rest => bytesOf (m.read a) ++ rest)

/-- The bytes of the first `n` cells a scan from cell `a` reads, in order; the address wraps. -/
def scannedBytes (bytesOf : Word → List Byte) (m : Memory) (a : Word) (n : Nat) : List Byte :=
  (List.range n).flatMap fun j => bytesOf (m.read (a + BitVec.ofNat 16 j))

/-- PUTS writes the low byte of a cell (45_trap.md R123). -/
def putsBytes (w : Word) : List Byte := [lowByte w]

/-- PUTSP writes the low byte, then the high byte if it is not zero (45_trap.md R125). -/
def putspBytes (w : Word) : List Byte :=
  if highByte w = 0x00#8 then [lowByte w] else [lowByte w, highByte w]

/-- The state inside a string service begun in `s`, once `n` cells have been read and none was zero (45_trap.md R123, R125,
R129): their bytes are written, nothing else has changed. -/
def State.scanned (s : State) (bytesOf : Word → List Byte) (n : Nat) : State :=
  s.consoleOut (scannedBytes bytesOf s.mem (s.readReg .r0) n)

/-- The string service on the cells from `x[0]` up: its bytes are appended to `out`. A scan that reads all 65,536 cells
and finds none zero never ends: memory does not change, so every further pass appends the same bytes (45_trap.md R129;
log 6). -/
def State.writeString (s : State) (bytesOf : Word → List Byte) : Result :=
  match scanString bytesOf s.mem cellCount (s.readReg .r0) with
  | some bs => trapReturn (s.consoleOut bs)
  | none => .fault (.stringScanNeverEnds s (scannedBytes bytesOf s.mem (s.readReg .r0) cellCount))

end Sys2Proof.Machine
end

