-- ==== Sys2Proof/Machine/Trap.lean ====
section
/-! DEFINITION. TRAP and its six services (45_trap.md). A service is performed inside the step, on the state in which
R7 has been written (R120). `ir` is the whole instruction word, recorded at a fatal stop (10_state.md R20). -/

namespace Sys2Proof.Machine

/-- The end of a call of `ConsoleIn` made by GETC or IN on the instruction word `ir` (45_trap.md R121, R124, R128, R129):
a byte goes on, FAIL is the fatal stop, no return leaves the core where it is. -/
def State.consoleIn (s : State) (ir : Word) (onByte : Byte → State → State) : Result :=
  match s.nextAnswer with
  | .byte c => trapReturn (onByte c s.answered)
  | .fail => .next (s.answered.stop .consoleInputFailure ir)
  | .never => .fault (.consoleInputNeverReturns s)

/-- GETC (45_trap.md R121): the byte goes to R0, zero-extended, by a plain write; no echo. -/
def serviceGetc (ir : Word) (s : State) : Result :=
  s.consoleIn ir (fun c t => t.writeReg .r0 (zext16 c))

/-- OUT (45_trap.md R122): bits 7:0 of R0. -/
def serviceOut (s : State) : Result := trapReturn (s.consoleOut [lowByte (s.readReg .r0)])

/-- PUTS (45_trap.md R123). -/
def servicePuts (s : State) : Result := s.writeString putsBytes

/-- IN (45_trap.md R124): prompt, read, echo, then the plain write of R0. -/
def serviceIn (ir : Word) (s : State) : Result :=
  (s.consoleOut s.inPrompt).consoleIn ir (fun c t => (t.consoleOut [c]).writeReg .r0 (zext16 c))

/-- PUTSP (45_trap.md R125). -/
def servicePutsp (s : State) : Result := s.writeString putspBytes

/-- HALT (45_trap.md R126): the notice, then the normal stop. -/
def serviceHalt (s : State) : Result := .next ((s.consoleOut s.haltNotice).stop .haltTrap 0x0000#16)

/-- An unknown vector (45_trap.md R127): the fatal stop; R7 stays written. -/
def serviceUnknown (ir : Word) (s : State) : Result := .next (s.stop .unknownTrapVector ir)

/-- TRAP (45_trap.md R120): the common part, then the dispatch by vector. The decoder gives this form unknown vectors
only (log 12). -/
def execTrap (ign : BitVec 4) (v : BitVec 8) (s : State) : Result :=
  match v with
  | 0x20#8 => serviceGetc (trapWord ign v) s.trapEnter
  | 0x21#8 => serviceOut s.trapEnter
  | 0x22#8 => servicePuts s.trapEnter
  | 0x23#8 => serviceIn (trapWord ign v) s.trapEnter
  | 0x24#8 => servicePutsp s.trapEnter
  | 0x25#8 => serviceHalt s.trapEnter
  | v => serviceUnknown (trapWord ign v) s.trapEnter

/-- TRAP x20 (45_trap.md R120, R121). -/
def execGetc (ign : BitVec 4) (s : State) : Result := serviceGetc (trapWord ign 0x20#8) s.trapEnter

/-- TRAP x21 (45_trap.md R120, R122). -/
def execOut (s : State) : Result := serviceOut s.trapEnter

/-- TRAP x22 (45_trap.md R120, R123). -/
def execPuts (s : State) : Result := servicePuts s.trapEnter

/-- TRAP x23 (45_trap.md R120, R124). -/
def execIn (ign : BitVec 4) (s : State) : Result := serviceIn (trapWord ign 0x23#8) s.trapEnter

/-- TRAP x24 (45_trap.md R120, R125). -/
def execPutsp (s : State) : Result := servicePutsp s.trapEnter

/-- TRAP x25 (45_trap.md R120, R126). -/
def execHalt (s : State) : Result := serviceHalt s.trapEnter

end Sys2Proof.Machine
end

