-- ==== Sys2Proof/Machine/Dispatch.lean ====
section
/-! DEFINITION. The dispatch: the execute phase of a step (40_cycle.md R73), on the state after the fetch. -/

namespace Sys2Proof.Machine

/-- The execute phase of instruction `i` (40_cycle.md R73): in `s`, `pc` is the incremented PC. -/
def exec (i : Instr) (s : State) : Host.Outcome State Fault Refusal :=
  match i with
  | .br n z p off => Sys2Proof.Machine.execBr n z p off s
  | .addReg dr sr1 sr2 _ => Sys2Proof.Machine.execAddReg dr sr1 sr2 s
  | .addImm dr sr1 imm => Sys2Proof.Machine.execAddImm dr sr1 imm s
  | .ld dr off => Sys2Proof.Machine.execLd dr off s
  | .st sr off => Sys2Proof.Machine.execSt sr off s
  | .jsrr base _ _ => Sys2Proof.Machine.execJsrr base s
  | .jsr off => Sys2Proof.Machine.execJsr off s
  | .andReg dr sr1 sr2 _ => Sys2Proof.Machine.execAndReg dr sr1 sr2 s
  | .andImm dr sr1 imm => Sys2Proof.Machine.execAndImm dr sr1 imm s
  | .ldr dr base off => Sys2Proof.Machine.execLdr dr base off s
  | .str sr base off => Sys2Proof.Machine.execStr sr base off s
  | .rti ign => Sys2Proof.Machine.execRti ign s
  | .not dr sr _ => Sys2Proof.Machine.execNot dr sr s
  | .ldi dr off => Sys2Proof.Machine.execLdi dr off s
  | .sti sr off => Sys2Proof.Machine.execSti sr off s
  | .jmp base _ _ => Sys2Proof.Machine.execJmp base s
  | .res ign => Sys2Proof.Machine.execRes ign s
  | .lea dr off => Sys2Proof.Machine.execLea dr off s
  | .trap ign vect => Sys2Proof.Machine.execTrap ign vect s
  | .getc ign => Sys2Proof.Machine.execGetc ign s
  | .out _ => Sys2Proof.Machine.execOut s
  | .puts _ => Sys2Proof.Machine.execPuts s
  | .inp ign => Sys2Proof.Machine.execIn ign s
  | .putsp _ => Sys2Proof.Machine.execPutsp s
  | .halt _ => Sys2Proof.Machine.execHalt s

end Sys2Proof.Machine
end

