-- ==== Sys2Proof/Machine/Step.lean ====
section
/-! DEFINITION. The step relation (40_cycle.md R70) and the host's placing of one instruction word. -/

namespace Sys2Proof.Machine

/-- One step (40_cycle.md R70): while `run = RUNNING`, fetch, decode, execute; HALTED has no step (R75; log 8). -/
def step (s : State) : Host.Outcome State Fault Refusal :=
  match s.run with
  | .running => exec (decode s.fetchWord) s.afterFetch
  | .halted => .fault (.notRunning s.cause)

/-- `s` with the instruction word whose `nbits` bits are `w` stored where `step` fetches (log 15). Every instruction is one
16-bit word (30_encoding.md R50); bits above `nbits` are 0. -/
def State.withFetchWord (s : State) (nbits w : Nat) : State := s.placeWord (BitVec.ofNat 16 (w % 2 ^ nbits))

end Sys2Proof.Machine
end

