-- ==== Sys2Proof/Machine/Loader.lean ====
section
/-! DEFINITION. The loader boundary (70_reset_and_hazards.md R171, 10_state.md R26): how an image reaches memory before
the first fetch. No step of the core calls it. -/

namespace Sys2Proof.Machine

/-- The words placed in consecutive cells from `origin` up. -/
def Memory.writeWords (m : Memory) (origin : Word) (ws : List Word) : Memory :=
  match ws with
  | [] => m
  | w :: rest => Memory.writeWords (m.write origin w) (origin + 1#16) rest

/-- The effect of the loader's pair `(origin, ws)` (70_reset_and_hazards.md R171): cell `origin + i` holds `ws[i]`, provided
`origin + n ≤ 65,536`; an image that does not fit is refused (decision D20). The origin does not influence PC. -/
def State.loadImage (s : State) (origin : Word) (ws : List Word) : Result :=
  if origin.toNat + ws.length ≤ 65536 then .next { s with mem := s.mem.writeWords origin ws }
  else .refused .imageDoesNotFit

end Sys2Proof.Machine
end

