-- ==== Sys2Proof/Safety.lean ====
section
/-! DEFINITION. What counts as a safe run, and the vocabulary of the claims: frames, the invariant, and the tables of the
spec that say which instruction may touch what. -/

namespace Sys2Proof.Machine

/-- A run that has ended normally: HALTED by the HALT service (40_cycle.md R76). -/
def State.endedNormally (s : State) : Bool := s.run == .halted && s.cause == .haltTrap

/-- A run that has ended in a fatal stop (40_cycle.md R76). -/
def State.fatallyStopped (s : State) : Bool := s.run == .halted && s.cause != .haltTrap

/-- The invariant of the machine: memory is canonical; `cause = NONE` exactly while RUNNING, `cause_info` is 0 for NONE and
HALT_TRAP, and else the word of an instruction that can raise the cause (10_state.md R20, 60_exceptions.md T-R151). -/
def State.Inv (s : State) : Prop :=
  s.mem.wf = true ∧ (s.cause = .none ↔ s.run = .running) ∧
    match s.cause with
    | .none => s.causeInfo = 0x0000#16
    | .haltTrap => s.causeInfo = 0x0000#16
    | .reservedOpcode => slice s.causeInfo 12 4 = 0x8#4 ∨ slice s.causeInfo 12 4 = 0xD#4
    | .unknownTrapVector => slice s.causeInfo 12 4 = 0xF#4 ∧ isServiceVector (slice s.causeInfo 0 8) = false
    | .consoleInputFailure =>
      slice s.causeInfo 12 4 = 0xF#4 ∧ (slice s.causeInfo 0 8 = 0x20#8 ∨ slice s.causeInfo 0 8 = 0x23#8)

/-- COND is the state `setcc(v)` gives (10_state.md R16), said on the value alone: ZERO for 0, NEGATIVE for bit 15, POSITIVE
for 0x0001 to 0x7FFF. -/
def FlagsFor (v : Word) (c : Cond) : Prop :=
  (c = .zero ↔ v = 0x0000#16) ∧ (c = .negative ↔ v.getLsbD 15 = true) ∧
    (c = .positive ↔ 1 ≤ v.toNat ∧ v.toNat ≤ 0x7FFF)

/-- Every general-purpose register outside `ds` is unchanged. -/
def RegsSameExcept (ds : List Reg) (s t : State) : Prop := ∀ r, r ∉ ds → t.readReg r = s.readReg r

/-- Every memory cell is unchanged. -/
def MemSame (s t : State) : Prop := ∀ a, t.readMem a = s.readMem a

/-- Every memory cell but `a` is unchanged. -/
def MemSameExcept (a : Word) (s t : State) : Prop := ∀ b, b ≠ a → t.readMem b = s.readMem b

/-- Nothing is written to the console and no input is taken. -/
def ConsoleSame (s t : State) : Prop := t.out = s.out ∧ t.inputPos = s.inputPos

/-- The run flag and the stop reason are unchanged. -/
def RunSame (s t : State) : Prop := t.run = s.run ∧ t.cause = s.cause ∧ t.causeInfo = s.causeInfo

/-- The parameters of the run are unchanged (00_scope.md R3). -/
def ParamsSame (s t : State) : Prop :=
  t.inPrompt = s.inPrompt ∧ t.haltNotice = s.haltNotice ∧ t.answers = s.answers

/-- `i` completes from `s`: `v` is in `dr`, COND is set from `v`, nothing else changes. -/
def WritesWithFlags (i : Instr) (s : State) (dr : Reg) (v : Word) : Prop :=
  ∃ t, exec i s = .next t ∧ t.readReg dr = v ∧ FlagsFor v t.cond ∧ t.pc = s.pc ∧ RegsSameExcept [dr] s t ∧
    MemSame s t ∧ ConsoleSame s t ∧ RunSame s t ∧ ParamsSame s t

/-- `i` completes from `s`: cell `a` holds `v`, nothing else changes. -/
def StoresWord (i : Instr) (s : State) (a v : Word) : Prop :=
  ∃ t, exec i s = .next t ∧ t.readMem a = v ∧ MemSameExcept a s t ∧ t.pc = s.pc ∧ t.cond = s.cond ∧
    RegsSameExcept [] s t ∧ ConsoleSame s t ∧ RunSame s t ∧ ParamsSame s t

/-- What every transfer of control leaves alone: COND, memory, console, run flag, parameters, and every register but
those of `ds`. -/
def TransferFrame (ds : List Reg) (s t : State) : Prop :=
  RegsSameExcept ds s t ∧ t.cond = s.cond ∧ MemSame s t ∧ ConsoleSame s t ∧ RunSame s t ∧ ParamsSame s t

/-- What every trap does and leaves alone (45_trap.md R120): R7 holds the incremented PC, PC and COND and memory and the
parameters are unchanged, and so is every register outside R7 and `ds`. -/
def TrapFrame (ds : List Reg) (s t : State) : Prop :=
  t.readReg .r7 = s.pc ∧ RegsSameExcept (.r7 :: ds) s t ∧ t.pc = s.pc ∧ t.cond = s.cond ∧ MemSame s t ∧
    ParamsSame s t

/-- The machine stopped with cause `c` and recorded word `info`. -/
def StoppedWith (c : Cause) (info : Word) (t : State) : Prop :=
  t.run = .halted ∧ t.cause = c ∧ t.causeInfo = info

/-- A string service begun in `s` that never ends, with `u` the state its scan begins in and `turn` what a pass over memory
writes (45_trap.md R129): R7 is written and nothing else; `turn` holds the bytes of all 65,536 cells from `x[0]` up; inside
the step each cell read appends its bytes, so that `out` outgrows every length, and each full pass appends `turn` again. -/
def ScansForEver (bytesOf : Word → List Byte) (s u : State) (turn : List Byte) : Prop :=
  TrapFrame [] s u ∧ ConsoleSame s u ∧ RunSame s u ∧
    turn = (List.range 65536).flatMap (fun j => bytesOf (s.readMem (s.readReg .r0 + BitVec.ofNat 16 j))) ∧
    (u.scanned bytesOf 0).out = s.out ∧
    (∀ n, (u.scanned bytesOf (n + 1)).out =
      (u.scanned bytesOf n).out ++ bytesOf (s.readMem (s.readReg .r0 + BitVec.ofNat 16 n))) ∧
    (∀ n, s.out.length + n ≤ (u.scanned bytesOf n).out.length) ∧
    ∀ n, (u.scanned bytesOf (n * 65536)).out = s.out ++ (List.replicate n turn).flatten

/-- The register an instruction writes with a flag update (10_state.md R12, R18): exactly ADD, AND, NOT, LD, LDI, LDR and
LEA have one. -/
def flagDest : Instr → Option Reg
  | .addReg dr _ _ _ | .addImm dr _ _ | .andReg dr _ _ _ | .andImm dr _ _ | .not dr _ _ => some dr
  | .ld dr _ | .ldi dr _ | .ldr dr _ _ | .lea dr _ => some dr
  | .st _ _ | .sti _ _ | .str _ _ _ | .br _ _ _ _ | .jmp _ _ _ | .jsr _ | .jsrr _ _ _ => none
  | .rti _ | .res _ | .trap _ _ | .getc _ | .out _ | .puts _ | .inp _ | .putsp _ | .halt _ => none

/-- The registers an instruction may write (10_state.md T-R12). -/
def regsWritten : Instr → List Reg
  | .addReg dr _ _ _ | .addImm dr _ _ | .andReg dr _ _ _ | .andImm dr _ _ | .not dr _ _ => [dr]
  | .ld dr _ | .ldi dr _ | .ldr dr _ _ | .lea dr _ => [dr]
  | .st _ _ | .sti _ _ | .str _ _ _ | .br _ _ _ _ | .jmp _ _ _ | .rti _ | .res _ => []
  | .jsr _ | .jsrr _ _ _ | .trap _ _ | .out _ | .puts _ | .putsp _ | .halt _ => [.r7]
  | .getc _ | .inp _ => [.r7, .r0]

/-- The registers an instruction may read (10_state.md T-R12). -/
def regsRead : Instr → List Reg
  | .addReg _ sr1 sr2 _ | .andReg _ sr1 sr2 _ => [sr1, sr2]
  | .addImm _ sr1 _ | .andImm _ sr1 _ => [sr1]
  | .not _ sr _ => [sr]
  | .ldr _ base _ | .jmp base _ _ | .jsrr base _ _ => [base]
  | .st sr _ | .sti sr _ => [sr]
  | .str sr base _ => [sr, base]
  | .out _ | .puts _ | .putsp _ => [.r0]
  | .ld _ _ | .ldi _ _ | .lea _ _ | .br _ _ _ _ | .jsr _ | .rti _ | .res _ => []
  | .trap _ _ | .getc _ | .inp _ | .halt _ => []

/-- The cell an instruction stores to (20_memory.md T-R36): only ST, STI and STR have one. -/
def storeAddress (i : Instr) (s : State) : Option Word :=
  match i with
  | .st _ off => some (s.pcRelative off)
  | .sti _ off => some (s.indirect off)
  | .str _ base off => some (s.basePlus base off)
  | .br _ _ _ _ | .jmp _ _ _ | .jsr _ | .jsrr _ _ _ | .rti _ | .res _ => none
  | .addReg _ _ _ _ | .addImm _ _ _ | .andReg _ _ _ _ | .andImm _ _ _ | .not _ _ _ => none
  | .ld _ _ | .ldi _ _ | .ldr _ _ _ | .lea _ _ => none
  | .trap _ _ | .getc _ | .out _ | .puts _ | .inp _ | .putsp _ | .halt _ => none

/-- The stop a well-formed instruction makes from `s`, if it makes one (10_state.md R19, 60_exceptions.md T-R151): its
cause and the recorded word. -/
def stopOf (i : Instr) (s : State) : Option (Cause × Word) :=
  match i with
  | .rti _ | .res _ => some (.reservedOpcode, encode i)
  | .trap _ _ => some (.unknownTrapVector, encode i)
  | .halt _ => some (.haltTrap, 0x0000#16)
  | .getc _ | .inp _ => if s.nextAnswer = .fail then some (.consoleInputFailure, encode i) else none
  | .br _ _ _ _ | .jmp _ _ _ | .jsr _ | .jsrr _ _ _ => none
  | .addReg _ _ _ _ | .addImm _ _ _ | .andReg _ _ _ _ | .andImm _ _ _ | .not _ _ _ => none
  | .ld _ _ | .ldi _ _ | .ldr _ _ _ | .lea _ _ | .st _ _ | .sti _ _ | .str _ _ _ => none
  | .out _ | .puts _ | .putsp _ => none

/-- Two results are the same but for the recorded instruction word. -/
def SameButInfo : Result → Result → Prop
  | .next t, .next u => { t with causeInfo := 0x0000#16 } = { u with causeInfo := 0x0000#16 }
  | .fault f, .fault g => f = g
  | .refused p, .refused q => p = q
  | _, _ => False

end Sys2Proof.Machine
end

