-- ==== Sys2Proof/Certificates/Slice0/Obligations.lean ====
section
/-! DEFINITION. The statements for the provers. In every statement about `exec`, the state is the one after the fetch,
so `pc` is the incremented PC (40_cycle.md R71). -/

open Sys2Proof Sys2Proof.Machine

/- ## Encoding -/

/-- Decoding the word of a well-formed instruction gives it back, every operand and every ignored bit included
(30_encoding.md R52, R53, R62). -/
def Obligations.DecodeOfEncodeIsIdentity : Prop :=
  ∀ i : Instr, i.WellFormed = true → decode (encode i) = i

/-- Every one of the 65,536 words decodes to a well-formed instruction (30_encoding.md R51), whose term encodes back to that
word. That no two words are one term is the model's choice: its terms keep the ignored bits (log 11), while R56 says that
every value of those bits selects the same instruction (`IgnoredBitsHaveNoEffect`). -/
def Obligations.EncodeOfDecodeIsIdentity : Prop :=
  ∀ w : Word, (decode w).WellFormed = true ∧ encode (decode w) = w

/-- Each word matches exactly one of the nineteen encoding rows (30_encoding.md R53). -/
def Obligations.NineteenRowsPartitionWords : Prop :=
  ∀ w : Word, ∃ r ∈ encodingRows, r.matchesWord w = true ∧
    ∀ r' ∈ encodingRows, r'.matchesWord w = true → r' = r

/-- The table alone, read with its priorities (30_encoding.md R62), chooses the row the decoder decodes to. -/
def Obligations.TablePriorityAgreesWithDecoder : Prop :=
  ∀ w : Word, rowOfWord w = some (decode w).row

/-- A few words of 95_test_vectors.md V-DECODE decode as the table there says. -/
def Obligations.SampleWordsDecode : Prop :=
  decode 0x0402#16 = .br false true false 2#9 ∧ decode 0x1401#16 = .addReg .r2 .r0 .r1 0#2 ∧
  decode 0x107D#16 = .addImm .r0 .r1 0x1D#5 ∧ decode 0x4080#16 = .jsrr .r2 0#2 0#6 ∧
  decode 0x4803#16 = .jsr 3#11 ∧ decode 0x7AC0#16 = .str .r5 .r3 0#6 ∧
  decode 0xA406#16 = .ldi .r2 6#9 ∧ decode 0xF025#16 = .halt 0#4

/-- Two words that differ only in bits their row ignores are the same instruction with the same effect
(30_encoding.md R56); only the recorded word of a fatal stop (10_state.md R20) can tell them apart: where the instruction
does not stop, and at the stop of HALT, which records no word, the results are equal. -/
def Obligations.IgnoredBitsHaveNoEffect : Prop :=
  ∀ (w v : Word) (s : State), (w ^^^ v) &&& ~~~(decode w).row.ignored = 0x0000#16 →
    (decode v).row = (decode w).row ∧ SameButInfo (exec (decode w) s) (exec (decode v) s) ∧
      (stopOf (decode w) s = none ∨ (decode w).row = .halt → exec (decode w) s = exec (decode v) s)

/- ## Operands and flags -/

/-- `sext_16` for the field widths 5, 6, 9 and 11 (00_scope.md R6): the OR with the mask above the field, and the one
16-bit word whose signed reading is the field's; `zext_16` puts zeros in bits 15:8. -/
def Obligations.SignExtensionKeepsSignedValue : Prop :=
  (∀ n ∈ [5, 6, 9, 11], ∀ f : BitVec n,
    (f.msb = false → (sext16 f).toNat = f.toNat) ∧
    (f.msb = true → sext16 f = BitVec.ofNat 16 f.toNat ||| (0xFFFF#16 &&& ~~~(BitVec.ofNat 16 (2 ^ n - 1)))) ∧
    (sext16 f).toInt = f.toInt ∧ ∀ u : Word, u.toInt = f.toInt → u = sext16 f) ∧
  (∀ b : Byte, (zext16 b).toNat = b.toNat) ∧ sext16 0x1F#5 = 0xFFFF#16 ∧ sext16 0x0F#5 = 0x000F#16

/-- `setcc` (10_state.md R16): ZERO exactly for 0, NEGATIVE exactly when bit 15 is set, POSITIVE exactly for 0x0001 to
0x7FFF. -/
def Obligations.SetccClassifiesEveryValue : Prop := ∀ v : Word, FlagsFor v (condOf v)

/-- BR's test on the enumeration is the source's mask test on the numeric form of COND (10_state.md R17): the mask
`ir[11:9]` ANDed with COND is not zero. -/
def Obligations.BranchTestIsMaskTest : Prop :=
  Cond.toWord .positive = 0x0001#16 ∧ Cond.toWord .zero = 0x0002#16 ∧ Cond.toWord .negative = 0x0004#16 ∧
  ∀ (w : Word) (c : Cond),
    branchTaken (w.getLsbD 11) (w.getLsbD 10) (w.getLsbD 9) c = true ↔
      (slice w 9 3).setWidth 16 &&& c.toWord ≠ 0x0000#16

/-- Every effective address is the signed sum reduced modulo 65,536 (20_memory.md R33): PC-relative with 9 and 11 bits, base
plus offset with 6. -/
def Obligations.EffectiveAddressesWrap : Prop :=
  (∀ (s : State) (off : BitVec 9), ((s.pcRelative off).toNat : Int) = ((s.pc.toNat : Int) + off.toInt) % 65536) ∧
  (∀ (s : State) (off : BitVec 11), ((s.pcRelative off).toNat : Int) = ((s.pc.toNat : Int) + off.toInt) % 65536) ∧
  (∀ (s : State) (base : Reg) (off : BitVec 6),
    ((s.basePlus base off).toNat : Int) = (((s.readReg base).toNat : Int) + off.toInt) % 65536)

/- ## Arithmetic and logic: the words of each row, then the effect with its frame -/

/-- ADD, register form (41_alu.md R80). -/
def Obligations.AddRegisterForm : Prop :=
  (∀ w : Word, w &&& 0xF020#16 = 0x1000#16 →
    decode w = .addReg (regField w 9) (regField w 6) (regField w 0) (slice w 3 2)) ∧
  ∀ (dr sr1 sr2 : Reg) (ign : BitVec 2) (s : State),
    WritesWithFlags (.addReg dr sr1 sr2 ign) s dr
      (BitVec.ofNat 16 (((s.readReg sr1).toNat + (s.readReg sr2).toNat) % 65536))

/-- ADD, immediate form (41_alu.md R81). -/
def Obligations.AddImmediateForm : Prop :=
  (∀ w : Word, w &&& 0xF020#16 = 0x1020#16 →
    decode w = .addImm (regField w 9) (regField w 6) (slice w 0 5)) ∧
  ∀ (dr sr1 : Reg) (imm : BitVec 5) (s : State),
    WritesWithFlags (.addImm dr sr1 imm) s dr
      (BitVec.ofNat 16 (((s.readReg sr1).toNat + (sext16 imm).toNat) % 65536))

/-- AND, register form (41_alu.md R82). -/
def Obligations.AndRegisterForm : Prop :=
  (∀ w : Word, w &&& 0xF020#16 = 0x5000#16 →
    decode w = .andReg (regField w 9) (regField w 6) (regField w 0) (slice w 3 2)) ∧
  ∀ (dr sr1 sr2 : Reg) (ign : BitVec 2) (s : State),
    WritesWithFlags (.andReg dr sr1 sr2 ign) s dr (s.readReg sr1 &&& s.readReg sr2)

/-- AND, immediate form (41_alu.md R83): the immediate is sign-extended before the AND. -/
def Obligations.AndImmediateForm : Prop :=
  (∀ w : Word, w &&& 0xF020#16 = 0x5020#16 →
    decode w = .andImm (regField w 9) (regField w 6) (slice w 0 5)) ∧
  ∀ (dr sr1 : Reg) (imm : BitVec 5) (s : State),
    WritesWithFlags (.andImm dr sr1 imm) s dr (s.readReg sr1 &&& sext16 imm)

/-- NOT (41_alu.md R84): the result is `0xFFFF - x[SR]`. -/
def Obligations.NotComplementsRegister : Prop :=
  (∀ w : Word, w &&& 0xF000#16 = 0x9000#16 → decode w = .not (regField w 9) (regField w 6) (slice w 0 6)) ∧
  ∀ (dr sr : Reg) (ign : BitVec 6) (s : State),
    WritesWithFlags (.not dr sr ign) s dr (BitVec.ofNat 16 (65535 - (s.readReg sr).toNat))

/- ## Control transfer -/

/-- BR (42_control.md R90): taken exactly when the mask bit of the present COND is 1; then `pc` moves by the offset,
else it keeps the incremented value; nothing else changes. -/
def Obligations.BranchFollowsCondition : Prop :=
  (∀ w : Word, w &&& 0xF000#16 = 0x0000#16 →
    decode w = .br (w.getLsbD 11) (w.getLsbD 10) (w.getLsbD 9) (slice w 0 9)) ∧
  ∀ (n z p : Bool) (off : BitVec 9) (s : State), ∃ t, exec (.br n z p off) s = .next t ∧
    (((n = true ∧ s.cond = .negative) ∨ (z = true ∧ s.cond = .zero) ∨ (p = true ∧ s.cond = .positive)) →
      t.pc = s.pc + sext16 off) ∧
    (¬((n = true ∧ s.cond = .negative) ∨ (z = true ∧ s.cond = .zero) ∨ (p = true ∧ s.cond = .positive)) →
      t.pc = s.pc) ∧
    TransferFrame [] s t

/-- JMP (42_control.md R91). -/
def Obligations.JumpGoesToBaseRegister : Prop :=
  (∀ w : Word, w &&& 0xF000#16 = 0xC000#16 → decode w = .jmp (regField w 6) (slice w 9 3) (slice w 0 6)) ∧
  ∀ (base : Reg) (ignHi : BitVec 3) (ignLo : BitVec 6) (s : State), ∃ t, exec (.jmp base ignHi ignLo) s = .next t ∧
    t.pc = s.readReg base ∧ TransferFrame [] s t

/-- JSR (42_control.md R92). -/
def Obligations.JsrLinksAndBranches : Prop :=
  (∀ w : Word, w &&& 0xF800#16 = 0x4800#16 → decode w = .jsr (slice w 0 11)) ∧
  ∀ (off : BitVec 11) (s : State), ∃ t, exec (.jsr off) s = .next t ∧
    t.readReg .r7 = s.pc ∧ t.pc = s.pc + sext16 off ∧ TransferFrame [.r7] s t

/-- JSRR (42_control.md R93): R7 is written first, so with base R7 control falls through. -/
def Obligations.JsrrLinksThenReadsBase : Prop :=
  (∀ w : Word, w &&& 0xF800#16 = 0x4000#16 → decode w = .jsrr (regField w 6) (slice w 9 2) (slice w 0 6)) ∧
  ∀ (base : Reg) (ignHi : BitVec 2) (ignLo : BitVec 6) (s : State), ∃ t, exec (.jsrr base ignHi ignLo) s = .next t ∧
    t.readReg .r7 = s.pc ∧ (base ≠ .r7 → t.pc = s.readReg base) ∧ (base = .r7 → t.pc = s.pc) ∧
    TransferFrame [.r7] s t

/- ## Loads -/

/-- LD (43_load.md R100). -/
def Obligations.LdLoadsPcRelative : Prop :=
  (∀ w : Word, w &&& 0xF000#16 = 0x2000#16 → decode w = .ld (regField w 9) (slice w 0 9)) ∧
  ∀ (dr : Reg) (off : BitVec 9) (s : State),
    WritesWithFlags (.ld dr off) s dr (s.readMem (s.pc + sext16 off))

/-- LDI (43_load.md R101): the pointer is read, then the cell it names. -/
def Obligations.LdiLoadsThroughPointer : Prop :=
  (∀ w : Word, w &&& 0xF000#16 = 0xA000#16 → decode w = .ldi (regField w 9) (slice w 0 9)) ∧
  ∀ (dr : Reg) (off : BitVec 9) (s : State),
    WritesWithFlags (.ldi dr off) s dr (s.readMem (s.readMem (s.pc + sext16 off)))

/-- LDR (43_load.md R102): the base is the old value when `DR = BaseR`. -/
def Obligations.LdrLoadsBasePlusOffset : Prop :=
  (∀ w : Word, w &&& 0xF000#16 = 0x6000#16 → decode w = .ldr (regField w 9) (regField w 6) (slice w 0 6)) ∧
  ∀ (dr base : Reg) (off : BitVec 6) (s : State),
    WritesWithFlags (.ldr dr base off) s dr (s.readMem (s.readReg base + sext16 off))

/-- LEA (43_load.md R103): the address itself, with a flag update. -/
def Obligations.LeaFormsAddressAndSetsFlags : Prop :=
  (∀ w : Word, w &&& 0xF000#16 = 0xE000#16 → decode w = .lea (regField w 9) (slice w 0 9)) ∧
  ∀ (dr : Reg) (off : BitVec 9) (s : State), WritesWithFlags (.lea dr off) s dr (s.pc + sext16 off)

/- ## Stores: the memory is canonical, an invariant of every step (`StepKeepsInvariant`) -/

/-- ST (44_store.md R110). -/
def Obligations.StStoresPcRelative : Prop :=
  (∀ w : Word, w &&& 0xF000#16 = 0x3000#16 → decode w = .st (regField w 9) (slice w 0 9)) ∧
  ∀ (sr : Reg) (off : BitVec 9) (s : State), s.mem.wf = true →
    StoresWord (.st sr off) s (s.pcRelative off) (s.readReg sr)

/-- STI (44_store.md R111): the pointer is read before the store, also when it is the cell stored to. -/
def Obligations.StiStoresThroughPointer : Prop :=
  (∀ w : Word, w &&& 0xF000#16 = 0xB000#16 → decode w = .sti (regField w 9) (slice w 0 9)) ∧
  ∀ (sr : Reg) (off : BitVec 9) (s : State), s.mem.wf = true →
    StoresWord (.sti sr off) s (s.readMem (s.pcRelative off)) (s.readReg sr)

/-- STR (44_store.md R112). -/
def Obligations.StrStoresBasePlusOffset : Prop :=
  (∀ w : Word, w &&& 0xF000#16 = 0x7000#16 → decode w = .str (regField w 9) (regField w 6) (slice w 0 6)) ∧
  ∀ (sr base : Reg) (off : BitVec 6) (s : State), s.mem.wf = true →
    StoresWord (.str sr base off) s (s.basePlus base off) (s.readReg sr)

/- ## TRAP and its services -/

/-- TRAP (45_trap.md R120): a TRAP word is read by its vector; the six vectors run their services, every other one is the
unknown vector; and whatever the vector, a TRAP that has a next state leaves the incremented PC in R7 and PC and COND as they
were. -/
def Obligations.TrapLinksAndDispatches : Prop :=
  (∀ w : Word, w &&& 0xF000#16 = 0xF000#16 → decode w = decodeTrap (slice w 8 4) (slice w 0 8)) ∧
  (∀ (ign : BitVec 4) (s : State),
    exec (.trap ign 0x20#8) s = exec (.getc ign) s ∧ exec (.trap ign 0x21#8) s = exec (.out ign) s ∧
    exec (.trap ign 0x22#8) s = exec (.puts ign) s ∧ exec (.trap ign 0x23#8) s = exec (.inp ign) s ∧
    exec (.trap ign 0x24#8) s = exec (.putsp ign) s ∧ exec (.trap ign 0x25#8) s = exec (.halt ign) s) ∧
  ∀ (ign : BitVec 4) (v : BitVec 8) (s t : State), exec (.trap ign v) s = .next t →
    t.readReg .r7 = s.pc ∧ t.pc = s.pc ∧ t.cond = s.cond ∧
      (isServiceVector v = false → StoppedWith .unknownTrapVector (0xF#4 ++ ign ++ v) t)

/-- An unknown vector (45_trap.md R127): the fatal stop with the whole word recorded; R7 stays written, nothing else
changes. -/
def Obligations.UnknownVectorStops : Prop :=
  (∀ w : Word, w &&& 0xF000#16 = 0xF000#16 → isServiceVector (slice w 0 8) = false →
    decode w = .trap (slice w 8 4) (slice w 0 8)) ∧
  ∀ (ign : BitVec 4) (v : BitVec 8) (s : State), isServiceVector v = false →
    ∃ t, exec (.trap ign v) s = .next t ∧ StoppedWith .unknownTrapVector (0xF#4 ++ ign ++ v) t ∧
      TrapFrame [] s t ∧ ConsoleSame s t

/-- GETC (45_trap.md R121). A byte: R0 is the byte, zero-extended, no echo, no flag update. FAIL: the fatal stop, R0 not
written. No answer: no next state. -/
def Obligations.GetcReadsByteIntoR0 : Prop :=
  (∀ w : Word, w &&& 0xF0FF#16 = 0xF020#16 → decode w = .getc (slice w 8 4)) ∧
  (∀ (ign : BitVec 4) (s : State) (c : Byte), s.nextAnswer = .byte c →
    ∃ t, exec (.getc ign) s = .next t ∧ (t.readReg .r0).toNat = c.toNat ∧ TrapFrame [.r0] s t ∧
      t.out = s.out ∧ t.inputPos = s.inputPos + 1 ∧ RunSame s t) ∧
  (∀ (ign : BitVec 4) (s : State), s.nextAnswer = .fail →
    ∃ t, exec (.getc ign) s = .next t ∧ StoppedWith .consoleInputFailure (0xF#4 ++ ign ++ 0x20#8) t ∧
      TrapFrame [] s t ∧ t.out = s.out) ∧
  ∀ (ign : BitVec 4) (s t : State), s.nextAnswer = .never → exec (.getc ign) s ≠ .next t

/-- OUT (45_trap.md R122): bits 7:0 of R0. -/
def Obligations.OutWritesLowByte : Prop :=
  (∀ w : Word, w &&& 0xF0FF#16 = 0xF021#16 → decode w = .out (slice w 8 4)) ∧
  ∀ (ign : BitVec 4) (s : State), ∃ t, exec (.out ign) s = .next t ∧
    t.out = s.out ++ [BitVec.ofNat 8 ((s.readReg .r0).toNat % 256)] ∧ TrapFrame [] s t ∧
    t.inputPos = s.inputPos ∧ RunSame s t

/-- PUTS (45_trap.md R123): with the first zero cell `k` cells above `x[0]`, the low bytes of the `k` cells before it are
written in order; and it completes exactly when some cell of memory is zero. -/
def Obligations.PutsWritesStringToZeroCell : Prop :=
  (∀ w : Word, w &&& 0xF0FF#16 = 0xF022#16 → decode w = .puts (slice w 8 4)) ∧
  (∀ (ign : BitVec 4) (s : State) (k : Nat), k < 65536 →
    (∀ j < k, s.readMem (s.readReg .r0 + BitVec.ofNat 16 j) ≠ 0x0000#16) →
    s.readMem (s.readReg .r0 + BitVec.ofNat 16 k) = 0x0000#16 →
    ∃ t, exec (.puts ign) s = .next t ∧
      t.out = s.out ++ (List.range k).map (fun j => lowByte (s.readMem (s.readReg .r0 + BitVec.ofNat 16 j))) ∧
      TrapFrame [] s t ∧ t.inputPos = s.inputPos ∧ RunSame s t) ∧
  ∀ (ign : BitVec 4) (s : State), (∃ t, exec (.puts ign) s = .next t) ↔ ∃ a, s.readMem a = 0x0000#16

/-- IN (45_trap.md R124). A byte: prompt, then echo, in `out`; R0 is the byte, zero-extended; no flag update. FAIL: the fatal
stop, with the prompt written, no echo, R0 not written. No answer: no next state. -/
def Obligations.InPromptsReadsAndEchoes : Prop :=
  (∀ w : Word, w &&& 0xF0FF#16 = 0xF023#16 → decode w = .inp (slice w 8 4)) ∧
  (∀ (ign : BitVec 4) (s : State) (c : Byte), s.nextAnswer = .byte c →
    ∃ t, exec (.inp ign) s = .next t ∧ (t.readReg .r0).toNat = c.toNat ∧ TrapFrame [.r0] s t ∧
      t.out = s.out ++ s.inPrompt ++ [c] ∧ t.inputPos = s.inputPos + 1 ∧ RunSame s t) ∧
  (∀ (ign : BitVec 4) (s : State), s.nextAnswer = .fail →
    ∃ t, exec (.inp ign) s = .next t ∧ StoppedWith .consoleInputFailure (0xF#4 ++ ign ++ 0x23#8) t ∧
      TrapFrame [] s t ∧ t.out = s.out ++ s.inPrompt) ∧
  ∀ (ign : BitVec 4) (s t : State), s.nextAnswer = .never → exec (.inp ign) s ≠ .next t

/-- PUTSP (45_trap.md R125): as PUTS, each cell giving its low byte and then its high byte if that is not zero; it completes
exactly when some cell of memory is zero. -/
def Obligations.PutspWritesPackedString : Prop :=
  (∀ w : Word, w &&& 0xF0FF#16 = 0xF024#16 → decode w = .putsp (slice w 8 4)) ∧
  (∀ (ign : BitVec 4) (s : State) (k : Nat), k < 65536 →
    (∀ j < k, s.readMem (s.readReg .r0 + BitVec.ofNat 16 j) ≠ 0x0000#16) →
    s.readMem (s.readReg .r0 + BitVec.ofNat 16 k) = 0x0000#16 →
    ∃ t, exec (.putsp ign) s = .next t ∧
      t.out = s.out ++ (List.range k).flatMap (fun j =>
        lowByte (s.readMem (s.readReg .r0 + BitVec.ofNat 16 j)) ::
          (if highByte (s.readMem (s.readReg .r0 + BitVec.ofNat 16 j)) = 0x00#8 then []
            else [highByte (s.readMem (s.readReg .r0 + BitVec.ofNat 16 j))])) ∧
      TrapFrame [] s t ∧ t.inputPos = s.inputPos ∧ RunSame s t) ∧
  ∀ (ign : BitVec 4) (s : State), (∃ t, exec (.putsp ign) s = .next t) ↔ ∃ a, s.readMem a = 0x0000#16

/-- HALT (45_trap.md R126): the notice is written, then the normal stop. -/
def Obligations.HaltWritesNoticeAndStops : Prop :=
  (∀ w : Word, w &&& 0xF0FF#16 = 0xF025#16 → decode w = .halt (slice w 8 4)) ∧
  ∀ (ign : BitVec 4) (s : State), ∃ t, exec (.halt ign) s = .next t ∧
    t.out = s.out ++ s.haltNotice ∧ StoppedWith .haltTrap 0x0000#16 t ∧ TrapFrame [] s t ∧ t.inputPos = s.inputPos

/-- A failed console read (45_trap.md R128): the fatal stop with the word recorded; R0 is not written and nothing is echoed;
what was done before the call stays. That the position in the console input moves by one on FAIL too is the model's choice
(log 17; 10_state.md R25). -/
def Obligations.ConsoleInputFailureStops : Prop :=
  ∀ (ign : BitVec 4) (s : State), s.nextAnswer = .fail →
    (∃ t, exec (.getc ign) s = .next t ∧ StoppedWith .consoleInputFailure (0xF#4 ++ ign ++ 0x20#8) t ∧
      TrapFrame [] s t ∧ t.out = s.out ∧ t.inputPos = s.inputPos + 1) ∧
    (∃ t, exec (.inp ign) s = .next t ∧ StoppedWith .consoleInputFailure (0xF#4 ++ ign ++ 0x23#8) t ∧
      TrapFrame [] s t ∧ t.out = s.out ++ s.inPrompt ∧ t.inputPos = s.inputPos + 1)

/-- Services that do not finish (45_trap.md R129): a console read that never returns, for IN with the prompt already
written; a string scan over a memory with no zero cell, whose output grows without end, pass after pass. That they are
faults which carry the state the core stays in is the model's choice (log 5, log 6). -/
def Obligations.UnfinishedServicesHaveNoNextState : Prop :=
  (∀ (ign : BitVec 4) (s : State), s.nextAnswer = .never →
    (∃ u, exec (.getc ign) s = .fault (.consoleInputNeverReturns u) ∧ u.out = s.out ∧
      u.readReg .r7 = s.pc ∧ RegsSameExcept [.r7] s u ∧ RunSame s u) ∧
    (∃ u, exec (.inp ign) s = .fault (.consoleInputNeverReturns u) ∧ u.out = s.out ++ s.inPrompt ∧
      u.readReg .r7 = s.pc ∧ RegsSameExcept [.r7] s u ∧ RunSame s u)) ∧
  ∀ (ign : BitVec 4) (s : State), (∀ a, s.readMem a ≠ 0x0000#16) →
    (∃ u turn, exec (.puts ign) s = .fault (.stringScanNeverEnds u turn) ∧ ScansForEver putsBytes s u turn) ∧
    ∃ u turn, exec (.putsp ign) s = .fault (.stringScanNeverEnds u turn) ∧ ScansForEver putspBytes s u turn

/- ## Reserved opcodes -/

/-- RTI (46_reserved.md R140): the fatal stop RESERVED_OPCODE; the execute step changes nothing else. -/
def Obligations.RtiStopsWithReservedOpcode : Prop :=
  (∀ w : Word, w &&& 0xF000#16 = 0x8000#16 → decode w = .rti (slice w 0 12)) ∧
  ∀ (ign : BitVec 12) (s : State), ∃ t, exec (.rti ign) s = .next t ∧
    StoppedWith .reservedOpcode (0x8#4 ++ ign) t ∧ t.pc = s.pc ∧ t.cond = s.cond ∧ RegsSameExcept [] s t ∧
    MemSame s t ∧ ConsoleSame s t ∧ ParamsSame s t

/-- RES (46_reserved.md R141). -/
def Obligations.ResStopsWithReservedOpcode : Prop :=
  (∀ w : Word, w &&& 0xF000#16 = 0xD000#16 → decode w = .res (slice w 0 12)) ∧
  ∀ (ign : BitVec 12) (s : State), ∃ t, exec (.res ign) s = .next t ∧
    StoppedWith .reservedOpcode (0xD#4 ++ ign) t ∧ t.pc = s.pc ∧ t.cond = s.cond ∧ RegsSameExcept [] s t ∧
    MemSame s t ∧ ConsoleSame s t ∧ ParamsSame s t

/- ## Rules about the whole machine -/

/-- COND (10_state.md R18): ADD, AND, NOT, LD, LDI, LDR and LEA leave it as `setcc` of the register they wrote; every other
instruction leaves it unchanged; and only BR's effect depends on it. -/
def Obligations.CondWrittenBySevenReadByBranch : Prop :=
  (∀ (i : Instr) (s t : State), exec i s = .next t →
    match flagDest i with
    | some d => FlagsFor (t.readReg d) t.cond
    | none => t.cond = s.cond) ∧
  ∀ (i : Instr) (s t : State) (c : Cond), i.row ≠ .br → exec i s = .next t →
    ∃ t', exec i { s with cond := c } = .next t' ∧ { t' with cond := t.cond } = t

/-- No instruction writes a general-purpose register other than those its row of 10_state.md T-R12 names. -/
def Obligations.OnlyNamedRegistersWritten : Prop :=
  ∀ (i : Instr) (s t : State), i.WellFormed = true → exec i s = .next t → RegsSameExcept (regsWritten i) s t

/-- No instruction reads a general-purpose register other than those its row of 10_state.md T-R12 names: a register that is
neither read nor written may hold anything, and the rest of the next state is the same. -/
def Obligations.UnnamedRegistersDoNotMatter : Prop :=
  ∀ (i : Instr) (s t : State) (r : Reg) (v : Word), i.WellFormed = true → r ∉ regsRead i → r ∉ regsWritten i →
    exec i s = .next t → exec i (s.writeReg r v) = .next (t.writeReg r v)

/-- Memory is written by ST, STI and STR only, each in the one cell its address names (20_memory.md T-R36); after every other
instruction every cell reads as before. -/
def Obligations.OnlyStoresWriteMemory : Prop :=
  ∀ (i : Instr) (s t : State) (a : Word), s.mem.wf = true → exec i s = .next t → storeAddress i s ≠ some a →
    t.readMem a = s.readMem a

/-- After the fetch, PC is written only by BR, JMP, JSR and JSRR (10_state.md R15); the trap services do not change it. -/
def Obligations.PcWrittenByTransfersOnly : Prop :=
  ∀ (i : Instr) (s t : State), i.row ∉ [Row.br, .jmp, .jsr, .jsrr] → exec i s = .next t → t.pc = s.pc

/-- The transitions to HALTED (10_state.md R19, R20): RTI, RES, an unknown vector, HALT, and a failed read by GETC or IN,
each with its cause and recorded word; every other next state leaves the run flag and the stop reason alone. The causes
have the codes of 60_exceptions.md T-R151. -/
def Obligations.StopsExactlyWhenListed : Prop :=
  ([Cause.none, .haltTrap, .reservedOpcode, .unknownTrapVector, .consoleInputFailure].map Cause.code = [0, 1, 2, 3, 4]) ∧
  ∀ (i : Instr) (s t : State), i.WellFormed = true → exec i s = .next t →
    match stopOf i s with
    | some (c, info) => StoppedWith c info t
    | none => RunSame s t

/-- Only GETC and IN call `ConsoleIn`, once each (10_state.md R25). That FAIL counts as a call made is the model's choice
(log 17). -/
def Obligations.ConsoleInputTakenByGetcAndInOnly : Prop :=
  ∀ (i : Instr) (s t : State), i.WellFormed = true → exec i s = .next t →
    t.inputPos = if i.row = .getc ∨ i.row = .inp then s.inputPos + 1 else s.inputPos

/-- The console trace only grows, and only by OUT, PUTS, IN, PUTSP and HALT (10_state.md R23, 45_trap.md R130). -/
def Obligations.OutputOnlyGrows : Prop :=
  ∀ s t : State, step s = .next t → ∃ bs, t.out = s.out ++ bs ∧
    ((decode s.fetchWord).row ∉ [Row.out, .puts, .inp, .putsp, .halt] → bs = [])

/-- The parameters of the run never change (00_scope.md R3, 10_state.md R25). -/
def Obligations.ParametersStayFixed : Prop := ∀ s t : State, step s = .next t → ParamsSame s t

/-- No other condition stops the core (60_exceptions.md R151): every well-formed instruction has a next state, but for GETC
and IN when the console never answers and PUTS and PUTSP when no cell of memory is zero (45_trap.md R129). -/
def Obligations.EveryInstructionCompletesUnlessItWaits : Prop :=
  ∀ (i : Instr) (s : State), i.WellFormed = true →
    (∃ t, exec i s = .next t) ∨ ((i.row = .getc ∨ i.row = .inp) ∧ s.nextAnswer = .never) ∨
      ((i.row = .puts ∨ i.row = .putsp) ∧ ∀ a, s.readMem a ≠ 0x0000#16)

/- ## The step, reset, memory -/

/-- A step (40_cycle.md R70, R71): while RUNNING, the word at `pc` is fetched, `pc` moves on by one, and the decoded
instruction is executed on that state. -/
def Obligations.StepRunsDecodedInstruction : Prop :=
  ∀ (s : State) (i : Instr), s.run = .running → decode (s.readMem s.pc) = i → i.WellFormed = true →
    step s = exec i { s with pc := s.pc + 1#16 }

/-- HALTED is terminal (40_cycle.md R70, R75): it has no step, and a step exists only while RUNNING. The fault is the
model's form of having no step (log 8). -/
def Obligations.HaltedHasNoStep : Prop :=
  (∀ s : State, s.run = .halted → step s = .fault (.notRunning s.cause)) ∧
  (∀ s t : State, step s = .next t → s.run = .running) ∧
  ∀ (s : State) (c : Cause), s.run = .running → step s ≠ .fault (.notRunning c)

/-- A run ends normally in a step exactly when the step executes HALT (40_cycle.md R76, 45_trap.md R126). -/
def Obligations.NormalEndOnlyByHalt : Prop :=
  ∀ s t : State, step s = .next t → (t.endedNormally = true ↔ (decode s.fetchWord).row = .halt)

/-- Reset (10_state.md R24, T-R24): PC, COND, run flag, stop reason, console trace and console position at the values the
spec gives, whatever the parameters; registers and memory hold the parameters; and `State.reset` is a reset, with the
parameters of log 1, log 2, log 4 and log 7. -/
def Obligations.ResetValues : Prop :=
  (∀ (gpr : RegFile) (m : Memory) (p h : List Byte) (ans : List ConsoleAnswer),
    let s := State.resetWith gpr m p h ans
    s.pc = 0x3000#16 ∧ s.cond = .zero ∧ s.run = .running ∧ s.cause = .none ∧ s.causeInfo = 0x0000#16 ∧
      s.out = [] ∧ s.inputPos = 0 ∧ (∀ r, s.readReg r = gpr.read r) ∧ (∀ a, s.readMem a = m.read a) ∧
      s.inPrompt = p ∧ s.haltNotice = h ∧ s.answers = ans) ∧
  ∃ (gpr : RegFile) (m : Memory) (p h : List Byte) (ans : List ConsoleAnswer),
    State.reset = State.resetWith gpr m p h ans

/-- The invariant holds at every reset whose memory is canonical, and at `State.reset`. The canonical form is the model's
choice (log 2, log 3). -/
def Obligations.ResetMeetsInvariant : Prop :=
  (∀ (gpr : RegFile) (m : Memory) (p h : List Byte) (ans : List ConsoleAnswer), m.wf = true →
    (State.resetWith gpr m p h ans).Inv) ∧ State.reset.Inv

/-- Every step keeps the invariant: memory stays canonical, `cause = NONE` exactly while RUNNING, and `cause_info` is what
the cause records (10_state.md R20, 60_exceptions.md T-R151). The canonical form is the model's choice (log 2, log 3). -/
def Obligations.StepKeepsInvariant : Prop := ∀ s t : State, s.Inv → step s = .next t → t.Inv

/-- Memory (20_memory.md R32): a write replaces the content of its cell and changes no other. -/
def Obligations.MemoryReadAfterWrite : Prop :=
  ∀ (m : Memory) (a v b : Word), m.wf = true →
    (m.write a v).read b = if b = a then v else m.read b

/-- Two canonical memories that read alike are the same list (the model's representation, log 2 and log 3). -/
def Obligations.CanonicalMemoryIsUnique : Prop :=
  ∀ m n : Memory, m.wf = true → n.wf = true → (∀ a, m.read a = n.read a) → m = n

/-- A store is seen by the very next fetch (20_memory.md R42): after a store to the cell at `pc`, the next step runs the
stored word. -/
def Obligations.StoreIsSeenByNextFetch : Prop :=
  (∀ (sr : Reg) (off : BitVec 9) (s : State), s.mem.wf = true → s.run = .running → s.pcRelative off = s.pc →
    ∃ t, exec (.st sr off) s = .next t ∧ step t = exec (decode (s.readReg sr)) t.afterFetch) ∧
  (∀ (sr : Reg) (off : BitVec 9) (s : State), s.mem.wf = true → s.run = .running → s.indirect off = s.pc →
    ∃ t, exec (.sti sr off) s = .next t ∧ step t = exec (decode (s.readReg sr)) t.afterFetch) ∧
  ∀ (sr base : Reg) (off : BitVec 6) (s : State), s.mem.wf = true → s.run = .running → s.basePlus base off = s.pc →
    ∃ t, exec (.str sr base off) s = .next t ∧ step t = exec (decode (s.readReg sr)) t.afterFetch

/-- The loader boundary (70_reset_and_hazards.md R171): an image that fits is placed word by word from its origin and
changes nothing else; one that does not fit is refused. The operation is the model's (log 15). -/
def Obligations.LoaderPlacesImage : Prop :=
  ∀ (s : State) (origin : Word) (ws : List Word), s.mem.wf = true →
    (origin.toNat + ws.length ≤ 65536 →
      ∃ t, s.loadImage origin ws = .next t ∧
        (∀ (k : Nat) (h : k < ws.length), t.readMem (origin + BitVec.ofNat 16 k) = ws[k]) ∧
        (∀ a : Word, (∀ k < ws.length, a ≠ origin + BitVec.ofNat 16 k) → t.readMem a = s.readMem a) ∧
        t.mem.wf = true ∧ { t with mem := s.mem } = s) ∧
    (65536 < origin.toNat + ws.length → s.loadImage origin ws = .refused .imageDoesNotFit)

/- ## Round trips of 95_test_vectors.md part 1 -/

/-- JSR then `JMP R7` (95_test_vectors.md S7): from any later state in which R7 still holds what JSR left there, the jump
goes to the instruction after the JSR. -/
def Obligations.JsrThenJmpR7Returns : Prop :=
  ∀ (off : BitVec 11) (ignHi : BitVec 3) (ignLo : BitVec 6) (s u : State), ∃ t,
    exec (.jsr off) s = .next t ∧
      (u.readReg .r7 = t.readReg .r7 → ∃ v, exec (.jmp .r7 ignHi ignLo) u = .next v ∧ v.pc = s.pc)

/-- STI then LDI through the same pointer cell (95_test_vectors.md S8): the stored word comes back, unless the pointer cell
points to itself. -/
def Obligations.StiThenLdiGivesValueBack : Prop :=
  ∀ (sr dr : Reg) (off : BitVec 9) (s : State), s.mem.wf = true → s.indirect off ≠ s.pcRelative off →
    ∃ t u, exec (.sti sr off) s = .next t ∧ exec (.ldi dr off) t = .next u ∧ u.readReg dr = s.readReg sr
end

