-- ==== Sys2Proof/Laws/State.lean ====
section
/-! SUPPORT. One lemma per field per state update: later proofs rewrite with these and unfold no record update. -/

namespace Sys2Proof.Machine

/- `State.writeReg` -/

@[simp] theorem State.writeReg_regs (s : State) (r : Reg) (v : Word) : (s.writeReg r v).regs = s.regs.write r v := rfl
@[simp] theorem State.writeReg_pc (s : State) (r : Reg) (v : Word) : (s.writeReg r v).pc = s.pc := rfl
@[simp] theorem State.writeReg_cond (s : State) (r : Reg) (v : Word) : (s.writeReg r v).cond = s.cond := rfl
@[simp] theorem State.writeReg_mem (s : State) (r : Reg) (v : Word) : (s.writeReg r v).mem = s.mem := rfl
@[simp] theorem State.writeReg_run (s : State) (r : Reg) (v : Word) : (s.writeReg r v).run = s.run := rfl
@[simp] theorem State.writeReg_cause (s : State) (r : Reg) (v : Word) : (s.writeReg r v).cause = s.cause := rfl
@[simp] theorem State.writeReg_causeInfo (s : State) (r : Reg) (v : Word) : (s.writeReg r v).causeInfo = s.causeInfo := rfl
@[simp] theorem State.writeReg_out (s : State) (r : Reg) (v : Word) : (s.writeReg r v).out = s.out := rfl
@[simp] theorem State.writeReg_inputPos (s : State) (r : Reg) (v : Word) : (s.writeReg r v).inputPos = s.inputPos := rfl
@[simp] theorem State.writeReg_inPrompt (s : State) (r : Reg) (v : Word) : (s.writeReg r v).inPrompt = s.inPrompt := rfl
@[simp] theorem State.writeReg_haltNotice (s : State) (r : Reg) (v : Word) : (s.writeReg r v).haltNotice = s.haltNotice := rfl
@[simp] theorem State.writeReg_answers (s : State) (r : Reg) (v : Word) : (s.writeReg r v).answers = s.answers := rfl

/- `State.writeMem` -/

@[simp] theorem State.writeMem_regs (s : State) (a v : Word) : (s.writeMem a v).regs = s.regs := rfl
@[simp] theorem State.writeMem_pc (s : State) (a v : Word) : (s.writeMem a v).pc = s.pc := rfl
@[simp] theorem State.writeMem_cond (s : State) (a v : Word) : (s.writeMem a v).cond = s.cond := rfl
@[simp] theorem State.writeMem_mem (s : State) (a v : Word) : (s.writeMem a v).mem = s.mem.write a v := rfl
@[simp] theorem State.writeMem_run (s : State) (a v : Word) : (s.writeMem a v).run = s.run := rfl
@[simp] theorem State.writeMem_cause (s : State) (a v : Word) : (s.writeMem a v).cause = s.cause := rfl
@[simp] theorem State.writeMem_causeInfo (s : State) (a v : Word) : (s.writeMem a v).causeInfo = s.causeInfo := rfl
@[simp] theorem State.writeMem_out (s : State) (a v : Word) : (s.writeMem a v).out = s.out := rfl
@[simp] theorem State.writeMem_inputPos (s : State) (a v : Word) : (s.writeMem a v).inputPos = s.inputPos := rfl
@[simp] theorem State.writeMem_inPrompt (s : State) (a v : Word) : (s.writeMem a v).inPrompt = s.inPrompt := rfl
@[simp] theorem State.writeMem_haltNotice (s : State) (a v : Word) : (s.writeMem a v).haltNotice = s.haltNotice := rfl
@[simp] theorem State.writeMem_answers (s : State) (a v : Word) : (s.writeMem a v).answers = s.answers := rfl

/- `State.setPc` -/

@[simp] theorem State.setPc_regs (s : State) (t : Word) : (s.setPc t).regs = s.regs := rfl
@[simp] theorem State.setPc_pc (s : State) (t : Word) : (s.setPc t).pc = t := rfl
@[simp] theorem State.setPc_cond (s : State) (t : Word) : (s.setPc t).cond = s.cond := rfl
@[simp] theorem State.setPc_mem (s : State) (t : Word) : (s.setPc t).mem = s.mem := rfl
@[simp] theorem State.setPc_run (s : State) (t : Word) : (s.setPc t).run = s.run := rfl
@[simp] theorem State.setPc_cause (s : State) (t : Word) : (s.setPc t).cause = s.cause := rfl
@[simp] theorem State.setPc_causeInfo (s : State) (t : Word) : (s.setPc t).causeInfo = s.causeInfo := rfl
@[simp] theorem State.setPc_out (s : State) (t : Word) : (s.setPc t).out = s.out := rfl
@[simp] theorem State.setPc_inputPos (s : State) (t : Word) : (s.setPc t).inputPos = s.inputPos := rfl
@[simp] theorem State.setPc_inPrompt (s : State) (t : Word) : (s.setPc t).inPrompt = s.inPrompt := rfl
@[simp] theorem State.setPc_haltNotice (s : State) (t : Word) : (s.setPc t).haltNotice = s.haltNotice := rfl
@[simp] theorem State.setPc_answers (s : State) (t : Word) : (s.setPc t).answers = s.answers := rfl

/- `State.afterFetch` -/

@[simp] theorem State.afterFetch_regs (s : State) : (s.afterFetch).regs = s.regs := rfl
@[simp] theorem State.afterFetch_pc (s : State) : (s.afterFetch).pc = s.pc + 1#16 := rfl
@[simp] theorem State.afterFetch_cond (s : State) : (s.afterFetch).cond = s.cond := rfl
@[simp] theorem State.afterFetch_mem (s : State) : (s.afterFetch).mem = s.mem := rfl
@[simp] theorem State.afterFetch_run (s : State) : (s.afterFetch).run = s.run := rfl
@[simp] theorem State.afterFetch_cause (s : State) : (s.afterFetch).cause = s.cause := rfl
@[simp] theorem State.afterFetch_causeInfo (s : State) : (s.afterFetch).causeInfo = s.causeInfo := rfl
@[simp] theorem State.afterFetch_out (s : State) : (s.afterFetch).out = s.out := rfl
@[simp] theorem State.afterFetch_inputPos (s : State) : (s.afterFetch).inputPos = s.inputPos := rfl
@[simp] theorem State.afterFetch_inPrompt (s : State) : (s.afterFetch).inPrompt = s.inPrompt := rfl
@[simp] theorem State.afterFetch_haltNotice (s : State) : (s.afterFetch).haltNotice = s.haltNotice := rfl
@[simp] theorem State.afterFetch_answers (s : State) : (s.afterFetch).answers = s.answers := rfl

/- `State.setAndFlag` -/

@[simp] theorem State.setAndFlag_regs (s : State) (r : Reg) (v : Word) : (s.setAndFlag r v).regs = s.regs.write r v := rfl
@[simp] theorem State.setAndFlag_pc (s : State) (r : Reg) (v : Word) : (s.setAndFlag r v).pc = s.pc := rfl
@[simp] theorem State.setAndFlag_cond (s : State) (r : Reg) (v : Word) : (s.setAndFlag r v).cond = condOf v := rfl
@[simp] theorem State.setAndFlag_mem (s : State) (r : Reg) (v : Word) : (s.setAndFlag r v).mem = s.mem := rfl
@[simp] theorem State.setAndFlag_run (s : State) (r : Reg) (v : Word) : (s.setAndFlag r v).run = s.run := rfl
@[simp] theorem State.setAndFlag_cause (s : State) (r : Reg) (v : Word) : (s.setAndFlag r v).cause = s.cause := rfl
@[simp] theorem State.setAndFlag_causeInfo (s : State) (r : Reg) (v : Word) : (s.setAndFlag r v).causeInfo = s.causeInfo := rfl
@[simp] theorem State.setAndFlag_out (s : State) (r : Reg) (v : Word) : (s.setAndFlag r v).out = s.out := rfl
@[simp] theorem State.setAndFlag_inputPos (s : State) (r : Reg) (v : Word) : (s.setAndFlag r v).inputPos = s.inputPos := rfl
@[simp] theorem State.setAndFlag_inPrompt (s : State) (r : Reg) (v : Word) : (s.setAndFlag r v).inPrompt = s.inPrompt := rfl
@[simp] theorem State.setAndFlag_haltNotice (s : State) (r : Reg) (v : Word) : (s.setAndFlag r v).haltNotice = s.haltNotice := rfl
@[simp] theorem State.setAndFlag_answers (s : State) (r : Reg) (v : Word) : (s.setAndFlag r v).answers = s.answers := rfl

/- `State.stop` -/

@[simp] theorem State.stop_regs (s : State) (c : Cause) (w : Word) : (s.stop c w).regs = s.regs := rfl
@[simp] theorem State.stop_pc (s : State) (c : Cause) (w : Word) : (s.stop c w).pc = s.pc := rfl
@[simp] theorem State.stop_cond (s : State) (c : Cause) (w : Word) : (s.stop c w).cond = s.cond := rfl
@[simp] theorem State.stop_mem (s : State) (c : Cause) (w : Word) : (s.stop c w).mem = s.mem := rfl
@[simp] theorem State.stop_run (s : State) (c : Cause) (w : Word) : (s.stop c w).run = .halted := rfl
@[simp] theorem State.stop_cause (s : State) (c : Cause) (w : Word) : (s.stop c w).cause = c := rfl
@[simp] theorem State.stop_causeInfo (s : State) (c : Cause) (w : Word) : (s.stop c w).causeInfo = w := rfl
@[simp] theorem State.stop_out (s : State) (c : Cause) (w : Word) : (s.stop c w).out = s.out := rfl
@[simp] theorem State.stop_inputPos (s : State) (c : Cause) (w : Word) : (s.stop c w).inputPos = s.inputPos := rfl
@[simp] theorem State.stop_inPrompt (s : State) (c : Cause) (w : Word) : (s.stop c w).inPrompt = s.inPrompt := rfl
@[simp] theorem State.stop_haltNotice (s : State) (c : Cause) (w : Word) : (s.stop c w).haltNotice = s.haltNotice := rfl
@[simp] theorem State.stop_answers (s : State) (c : Cause) (w : Word) : (s.stop c w).answers = s.answers := rfl

/- `State.trapEnter` -/

@[simp] theorem State.trapEnter_regs (s : State) : (s.trapEnter).regs = s.regs.write .r7 s.pc := rfl
@[simp] theorem State.trapEnter_pc (s : State) : (s.trapEnter).pc = s.pc := rfl
@[simp] theorem State.trapEnter_cond (s : State) : (s.trapEnter).cond = s.cond := rfl
@[simp] theorem State.trapEnter_mem (s : State) : (s.trapEnter).mem = s.mem := rfl
@[simp] theorem State.trapEnter_run (s : State) : (s.trapEnter).run = s.run := rfl
@[simp] theorem State.trapEnter_cause (s : State) : (s.trapEnter).cause = s.cause := rfl
@[simp] theorem State.trapEnter_causeInfo (s : State) : (s.trapEnter).causeInfo = s.causeInfo := rfl
@[simp] theorem State.trapEnter_out (s : State) : (s.trapEnter).out = s.out := rfl
@[simp] theorem State.trapEnter_inputPos (s : State) : (s.trapEnter).inputPos = s.inputPos := rfl
@[simp] theorem State.trapEnter_inPrompt (s : State) : (s.trapEnter).inPrompt = s.inPrompt := rfl
@[simp] theorem State.trapEnter_haltNotice (s : State) : (s.trapEnter).haltNotice = s.haltNotice := rfl
@[simp] theorem State.trapEnter_answers (s : State) : (s.trapEnter).answers = s.answers := rfl

/- `State.consoleOut` -/

@[simp] theorem State.consoleOut_regs (s : State) (bs : List Byte) : (s.consoleOut bs).regs = s.regs := rfl
@[simp] theorem State.consoleOut_pc (s : State) (bs : List Byte) : (s.consoleOut bs).pc = s.pc := rfl
@[simp] theorem State.consoleOut_cond (s : State) (bs : List Byte) : (s.consoleOut bs).cond = s.cond := rfl
@[simp] theorem State.consoleOut_mem (s : State) (bs : List Byte) : (s.consoleOut bs).mem = s.mem := rfl
@[simp] theorem State.consoleOut_run (s : State) (bs : List Byte) : (s.consoleOut bs).run = s.run := rfl
@[simp] theorem State.consoleOut_cause (s : State) (bs : List Byte) : (s.consoleOut bs).cause = s.cause := rfl
@[simp] theorem State.consoleOut_causeInfo (s : State) (bs : List Byte) : (s.consoleOut bs).causeInfo = s.causeInfo := rfl
@[simp] theorem State.consoleOut_out (s : State) (bs : List Byte) : (s.consoleOut bs).out = s.out ++ bs := rfl
@[simp] theorem State.consoleOut_inputPos (s : State) (bs : List Byte) : (s.consoleOut bs).inputPos = s.inputPos := rfl
@[simp] theorem State.consoleOut_inPrompt (s : State) (bs : List Byte) : (s.consoleOut bs).inPrompt = s.inPrompt := rfl
@[simp] theorem State.consoleOut_haltNotice (s : State) (bs : List Byte) : (s.consoleOut bs).haltNotice = s.haltNotice := rfl
@[simp] theorem State.consoleOut_answers (s : State) (bs : List Byte) : (s.consoleOut bs).answers = s.answers := rfl

/- `State.answered` -/

@[simp] theorem State.answered_regs (s : State) : (s.answered).regs = s.regs := rfl
@[simp] theorem State.answered_pc (s : State) : (s.answered).pc = s.pc := rfl
@[simp] theorem State.answered_cond (s : State) : (s.answered).cond = s.cond := rfl
@[simp] theorem State.answered_mem (s : State) : (s.answered).mem = s.mem := rfl
@[simp] theorem State.answered_run (s : State) : (s.answered).run = s.run := rfl
@[simp] theorem State.answered_cause (s : State) : (s.answered).cause = s.cause := rfl
@[simp] theorem State.answered_causeInfo (s : State) : (s.answered).causeInfo = s.causeInfo := rfl
@[simp] theorem State.answered_out (s : State) : (s.answered).out = s.out := rfl
@[simp] theorem State.answered_inputPos (s : State) : (s.answered).inputPos = s.inputPos + 1 := rfl
@[simp] theorem State.answered_inPrompt (s : State) : (s.answered).inPrompt = s.inPrompt := rfl
@[simp] theorem State.answered_haltNotice (s : State) : (s.answered).haltNotice = s.haltNotice := rfl
@[simp] theorem State.answered_answers (s : State) : (s.answered).answers = s.answers := rfl

/- `State.placeWord` -/

@[simp] theorem State.placeWord_regs (s : State) (w : Word) : (s.placeWord w).regs = s.regs := rfl
@[simp] theorem State.placeWord_pc (s : State) (w : Word) : (s.placeWord w).pc = s.pc := rfl
@[simp] theorem State.placeWord_cond (s : State) (w : Word) : (s.placeWord w).cond = s.cond := rfl
@[simp] theorem State.placeWord_mem (s : State) (w : Word) : (s.placeWord w).mem = s.mem.write s.pc w := rfl
@[simp] theorem State.placeWord_run (s : State) (w : Word) : (s.placeWord w).run = .running := rfl
@[simp] theorem State.placeWord_cause (s : State) (w : Word) : (s.placeWord w).cause = .none := rfl
@[simp] theorem State.placeWord_causeInfo (s : State) (w : Word) : (s.placeWord w).causeInfo = 0x0000#16 := rfl
@[simp] theorem State.placeWord_out (s : State) (w : Word) : (s.placeWord w).out = s.out := rfl
@[simp] theorem State.placeWord_inputPos (s : State) (w : Word) : (s.placeWord w).inputPos = s.inputPos := rfl
@[simp] theorem State.placeWord_inPrompt (s : State) (w : Word) : (s.placeWord w).inPrompt = s.inPrompt := rfl
@[simp] theorem State.placeWord_haltNotice (s : State) (w : Word) : (s.placeWord w).haltNotice = s.haltNotice := rfl
@[simp] theorem State.placeWord_answers (s : State) (w : Word) : (s.placeWord w).answers = s.answers := rfl

/- `State.scanned` -/

@[simp] theorem State.scanned_regs (s : State) (bytesOf : Word → List Byte) (n : Nat) : (s.scanned bytesOf n).regs = s.regs := rfl
@[simp] theorem State.scanned_pc (s : State) (bytesOf : Word → List Byte) (n : Nat) : (s.scanned bytesOf n).pc = s.pc := rfl
@[simp] theorem State.scanned_cond (s : State) (bytesOf : Word → List Byte) (n : Nat) : (s.scanned bytesOf n).cond = s.cond := rfl
@[simp] theorem State.scanned_mem (s : State) (bytesOf : Word → List Byte) (n : Nat) : (s.scanned bytesOf n).mem = s.mem := rfl
@[simp] theorem State.scanned_run (s : State) (bytesOf : Word → List Byte) (n : Nat) : (s.scanned bytesOf n).run = s.run := rfl
@[simp] theorem State.scanned_cause (s : State) (bytesOf : Word → List Byte) (n : Nat) : (s.scanned bytesOf n).cause = s.cause := rfl
@[simp] theorem State.scanned_causeInfo (s : State) (bytesOf : Word → List Byte) (n : Nat) : (s.scanned bytesOf n).causeInfo = s.causeInfo := rfl
@[simp] theorem State.scanned_inputPos (s : State) (bytesOf : Word → List Byte) (n : Nat) : (s.scanned bytesOf n).inputPos = s.inputPos := rfl
@[simp] theorem State.scanned_inPrompt (s : State) (bytesOf : Word → List Byte) (n : Nat) : (s.scanned bytesOf n).inPrompt = s.inPrompt := rfl
@[simp] theorem State.scanned_haltNotice (s : State) (bytesOf : Word → List Byte) (n : Nat) : (s.scanned bytesOf n).haltNotice = s.haltNotice := rfl
@[simp] theorem State.scanned_answers (s : State) (bytesOf : Word → List Byte) (n : Nat) : (s.scanned bytesOf n).answers = s.answers := rfl
@[simp] theorem State.scanned_out (s : State) (bytesOf : Word → List Byte) (n : Nat) :
    (s.scanned bytesOf n).out = s.out ++ scannedBytes bytesOf s.mem (s.readReg .r0) n := rfl

end Sys2Proof.Machine
end

