-- ==== Sys2Proof/Laws/Registers.lean ====
section
/-! SUPPORT. Reads of a register or a cell after each state update. -/

namespace Sys2Proof.Machine

/-- A register reads what was last written to it, and a write leaves every other register alone. -/
theorem RegFile.read_write (f : RegFile) (d r : Reg) (v : Word) :
    (f.write d v).read r = if r = d then v else f.read r := by
  cases d <;> cases r <;> rfl

/-- Writes to different registers commute. -/
theorem RegFile.write_comm (f : RegFile) (d e : Reg) (u v : Word) (h : d ≠ e) :
    (f.write d u).write e v = (f.write e v).write d u := by
  cases d <;> cases e <;> first | rfl | exact absurd rfl h

@[simp] theorem State.readReg_writeReg (s : State) (d r : Reg) (v : Word) :
    (s.writeReg d v).readReg r = if r = d then v else s.readReg r := RegFile.read_write s.regs d r v

@[simp] theorem State.readReg_setAndFlag (s : State) (d r : Reg) (v : Word) :
    (s.setAndFlag d v).readReg r = if r = d then v else s.readReg r := RegFile.read_write s.regs d r v

@[simp] theorem State.readReg_trapEnter (s : State) (r : Reg) :
    s.trapEnter.readReg r = if r = .r7 then s.pc else s.readReg r := RegFile.read_write s.regs .r7 r s.pc

@[simp] theorem State.readReg_writeMem (s : State) (a v : Word) (r : Reg) :
    (s.writeMem a v).readReg r = s.readReg r := rfl

@[simp] theorem State.readReg_setPc (s : State) (t : Word) (r : Reg) : (s.setPc t).readReg r = s.readReg r := rfl

@[simp] theorem State.readReg_afterFetch (s : State) (r : Reg) : s.afterFetch.readReg r = s.readReg r := rfl

@[simp] theorem State.readReg_stop (s : State) (c : Cause) (w : Word) (r : Reg) :
    (s.stop c w).readReg r = s.readReg r := rfl

@[simp] theorem State.readReg_consoleOut (s : State) (bs : List Byte) (r : Reg) :
    (s.consoleOut bs).readReg r = s.readReg r := rfl

@[simp] theorem State.readReg_answered (s : State) (r : Reg) : s.answered.readReg r = s.readReg r := rfl

@[simp] theorem State.readMem_writeReg (s : State) (d : Reg) (v a : Word) :
    (s.writeReg d v).readMem a = s.readMem a := rfl

@[simp] theorem State.readMem_setAndFlag (s : State) (d : Reg) (v a : Word) :
    (s.setAndFlag d v).readMem a = s.readMem a := rfl

@[simp] theorem State.readMem_trapEnter (s : State) (a : Word) : s.trapEnter.readMem a = s.readMem a := rfl

@[simp] theorem State.readMem_setPc (s : State) (t a : Word) : (s.setPc t).readMem a = s.readMem a := rfl

@[simp] theorem State.readMem_afterFetch (s : State) (a : Word) : s.afterFetch.readMem a = s.readMem a := rfl

@[simp] theorem State.readMem_stop (s : State) (c : Cause) (w a : Word) : (s.stop c w).readMem a = s.readMem a := rfl

@[simp] theorem State.readMem_consoleOut (s : State) (bs : List Byte) (a : Word) :
    (s.consoleOut bs).readMem a = s.readMem a := rfl

@[simp] theorem State.readMem_answered (s : State) (a : Word) : s.answered.readMem a = s.readMem a := rfl

end Sys2Proof.Machine
end

