-- ==== Sys2Proof/Laws/Console.lean ====
section
/-! SUPPORT. What the console operations can do. -/

namespace Sys2Proof.Machine

/-- A string service that has a next state appended the bytes of a scan that ended. -/
theorem State.writeString_next {s t : State} {bytesOf : Word → List Byte} (h : s.writeString bytesOf = .next t) :
    ∃ bs, scanString bytesOf s.mem cellCount (s.readReg .r0) = some bs ∧ t = s.consoleOut bs := by
  unfold State.writeString at h
  split at h
  · next bs hbs => exact ⟨bs, hbs, by simpa [trapReturn] using h.symm⟩
  · cases h

/-- A string service is never refused, and its one fault is the scan that finds no zero cell. -/
theorem State.writeString_of_none {s : State} {bytesOf : Word → List Byte}
    (h : scanString bytesOf s.mem cellCount (s.readReg .r0) = none) :
    s.writeString bytesOf =
      .fault (.stringScanNeverEnds s (scannedBytes bytesOf s.mem (s.readReg .r0) cellCount)) := by
  unfold State.writeString
  rw [h]

theorem State.writeString_of_some {s : State} {bytesOf : Word → List Byte} {bs : List Byte}
    (h : scanString bytesOf s.mem cellCount (s.readReg .r0) = some bs) :
    s.writeString bytesOf = .next (s.consoleOut bs) := by
  unfold State.writeString
  rw [h]
  rfl

/-- A console read that has a next state got a byte or FAIL. -/
theorem State.consoleIn_next {s t : State} {ir : Word} {onByte : Byte → State → State}
    (h : s.consoleIn ir onByte = .next t) :
    (∃ c, s.nextAnswer = .byte c ∧ t = onByte c s.answered) ∨
      (s.nextAnswer = .fail ∧ t = s.answered.stop .consoleInputFailure ir) := by
  unfold State.consoleIn at h
  split at h
  · next c hc => exact .inl ⟨c, hc, by simpa [trapReturn] using h.symm⟩
  · next hc => exact .inr ⟨hc, by simpa using h.symm⟩
  · cases h

theorem State.consoleIn_of_byte {s : State} {ir : Word} {onByte : Byte → State → State} {c : Byte}
    (h : s.nextAnswer = .byte c) : s.consoleIn ir onByte = .next (onByte c s.answered) := by
  unfold State.consoleIn
  rw [h]
  rfl

theorem State.consoleIn_of_fail {s : State} {ir : Word} {onByte : Byte → State → State}
    (h : s.nextAnswer = .fail) : s.consoleIn ir onByte = .next (s.answered.stop .consoleInputFailure ir) := by
  unfold State.consoleIn
  rw [h]

theorem State.consoleIn_of_never {s : State} {ir : Word} {onByte : Byte → State → State}
    (h : s.nextAnswer = .never) : s.consoleIn ir onByte = .fault (.consoleInputNeverReturns s) := by
  unfold State.consoleIn
  rw [h]

/-- The next answer depends on the fixed answers and the position alone. -/
theorem State.nextAnswer_congr {s t : State} (ha : t.answers = s.answers) (hp : t.inputPos = s.inputPos) :
    t.nextAnswer = s.nextAnswer := by
  unfold State.nextAnswer
  rw [ha, hp]

@[simp] theorem State.nextAnswer_trapEnter (s : State) : s.trapEnter.nextAnswer = s.nextAnswer := rfl

@[simp] theorem State.nextAnswer_consoleOut (s : State) (bs : List Byte) :
    (s.consoleOut bs).nextAnswer = s.nextAnswer := rfl

@[simp] theorem State.nextAnswer_writeReg (s : State) (r : Reg) (v : Word) :
    (s.writeReg r v).nextAnswer = s.nextAnswer := rfl

@[simp] theorem scannedBytes_zero (bytesOf : Word → List Byte) (m : Memory) (a : Word) :
    scannedBytes bytesOf m a 0 = [] := rfl

/-- One more cell read appends that cell's bytes. -/
theorem scannedBytes_succ (bytesOf : Word → List Byte) (m : Memory) (a : Word) (n : Nat) :
    scannedBytes bytesOf m a (n + 1) =
      scannedBytes bytesOf m a n ++ bytesOf (m.read (a + BitVec.ofNat 16 n)) := by
  simp [scannedBytes, List.range_succ]

/-- The cell `j + 1` on from `a` is the cell `j` on from the next one. -/
theorem cell_succ (a : Word) (j : Nat) : a + BitVec.ofNat 16 (j + 1) = a + 1#16 + BitVec.ofNat 16 j := by
  rw [BitVec.ofNat_add, BitVec.add_comm (BitVec.ofNat 16 j), ← BitVec.add_assoc]

/-- The first cell's bytes come first. -/
theorem scannedBytes_cons (bytesOf : Word → List Byte) (m : Memory) (a : Word) (n : Nat) :
    scannedBytes bytesOf m a (n + 1) = bytesOf (m.read a) ++ scannedBytes bytesOf m (a + 1#16) n := by
  have rest : (List.range n).flatMap (fun j => bytesOf (m.read (a + BitVec.ofNat 16 (j + 1)))) =
      scannedBytes bytesOf m (a + 1#16) n :=
    congrArg (List.flatMap · (List.range n)) (funext fun j => congrArg (fun b => bytesOf (m.read b)) (cell_succ a j))
  rw [← rest, scannedBytes, List.range_succ_eq_map, List.flatMap_cons, List.flatMap_map, BitVec.add_zero]

/-- Where every cell gives at least one byte, `n` cells give at least `n` bytes. -/
theorem le_length_scannedBytes {bytesOf : Word → List Byte} (hb : ∀ w, 1 ≤ (bytesOf w).length) (m : Memory)
    (a : Word) : ∀ n, n ≤ (scannedBytes bytesOf m a n).length
  | 0 => Nat.zero_le _
  | n + 1 => by
    rw [scannedBytes_succ, List.length_append]
    exact Nat.add_le_add (le_length_scannedBytes hb m a n) (hb _)

/-- A pass and `n` cells more are the bytes of the pass and of the first `n` cells again: the address has wrapped. -/
theorem scannedBytes_add_cellCount (bytesOf : Word → List Byte) (m : Memory) (a : Word) : ∀ n,
    scannedBytes bytesOf m a (cellCount + n) = scannedBytes bytesOf m a cellCount ++ scannedBytes bytesOf m a n
  | 0 => by rw [Nat.add_zero, scannedBytes_zero, List.append_nil]
  | n + 1 => by
    have wrap : BitVec.ofNat 16 (cellCount + n) = BitVec.ofNat 16 n :=
      BitVec.eq_of_toNat_eq (by simp only [BitVec.toNat_ofNat, cellCount]; omega)
    rw [← Nat.add_assoc, scannedBytes_succ, scannedBytes_add_cellCount bytesOf m a n, wrap, List.append_assoc,
      ← scannedBytes_succ]

@[simp] theorem length_putsBytes (w : Word) : (putsBytes w).length = 1 := rfl

theorem one_le_length_putspBytes (w : Word) : 1 ≤ (putspBytes w).length := by
  unfold putspBytes
  split <;> simp

/-- One step of the scan: a zero cell ends it. -/
theorem scanString_zero {bytesOf : Word → List Byte} {m : Memory} {a : Word} (k : Nat)
    (h : m.read a = 0x0000#16) : scanString bytesOf m (k + 1) a = some [] := by
  simp [scanString, h]

/-- One step of the scan: a nonzero cell gives its bytes and the scan goes on. -/
theorem scanString_nonzero {bytesOf : Word → List Byte} {m : Memory} {a : Word} (k : Nat)
    (h : m.read a ≠ 0x0000#16) :
    scanString bytesOf m (k + 1) a =
      (scanString bytesOf m k (a + 1#16)).map (fun rest => bytesOf (m.read a) ++ rest) := by
  simp [scanString, h]

/-- A scan that meets its first zero cell `k` cells on, within its fuel, gives the bytes of the `k` cells before it. -/
theorem scanString_first_zero (bytesOf : Word → List Byte) (m : Memory) : ∀ (k fuel : Nat) (a : Word), k < fuel →
    (∀ j < k, m.read (a + BitVec.ofNat 16 j) ≠ 0x0000#16) → m.read (a + BitVec.ofNat 16 k) = 0x0000#16 →
    scanString bytesOf m fuel a = some (scannedBytes bytesOf m a k)
  | 0, fuel + 1, a, _, _, h => scanString_zero fuel (by simpa using h)
  | k + 1, fuel + 1, a, hk, hne, h => by
    have rest := scanString_first_zero bytesOf m k fuel (a + 1#16) (by omega)
      (fun j hj => cell_succ a j ▸ hne (j + 1) (by omega)) (cell_succ a k ▸ h)
    rw [scanString_nonzero fuel (by simpa using hne 0 (by omega)), rest, scannedBytes_cons, Option.map_some]

/-- A scan over a memory with no zero cell ends for no fuel. -/
theorem scanString_no_zero (bytesOf : Word → List Byte) (m : Memory) (h : ∀ a, m.read a ≠ 0x0000#16) :
    ∀ (fuel : Nat) (a : Word), scanString bytesOf m fuel a = none
  | 0, _ => rfl
  | fuel + 1, a => by rw [scanString_nonzero fuel (h a), scanString_no_zero bytesOf m h fuel]; rfl

/-- A zero cell anywhere in memory is met within 65,536 cells from any address. -/
theorem Memory.first_zero_from (m : Memory) (a z : Word) (h : m.read z = 0x0000#16) :
    ∃ k < cellCount, (∀ j < k, m.read (a + BitVec.ofNat 16 j) ≠ 0x0000#16) ∧
      m.read (a + BitVec.ofNat 16 k) = 0x0000#16 := by
  have hz : m.read (a + BitVec.ofNat 16 (z - a).toNat) = 0x0000#16 := by
    rw [BitVec.ofNat_toNat, BitVec.setWidth_eq, BitVec.add_comm, BitVec.sub_add_cancel]
    exact h
  have hex : ∃ k, m.read (a + BitVec.ofNat 16 k) = 0x0000#16 := ⟨_, hz⟩
  exact ⟨Nat.find hex, lt_of_le_of_lt (Nat.find_min' hex hz) (z - a).isLt, fun j hj => Nat.find_min hex hj,
    Nat.find_spec hex⟩

end Sys2Proof.Machine
end

