-- ==== Sys2Proof/Laws/Decode.lean ====
section
/-! SUPPORT. The register index both ways, and what a masked word says of its bits and its opcode. -/

namespace Sys2Proof

@[simp] theorem Reg.ofBits_toBits (r : Reg) : Reg.ofBits r.toBits = r := by cases r <;> rfl

@[simp] theorem Reg.toBits_ofBits (b : BitVec 3) : (Reg.ofBits b).toBits = b := by revert b; decide

/-- A word whose bits under a mask are those of a pattern has the pattern's bit wherever the mask has a 1. -/
theorem getLsbD_of_mask {w mask pattern : Word} (h : w &&& mask = pattern) (k : Nat) (hk : mask.getLsbD k = true) :
    w.getLsbD k = pattern.getLsbD k := by
  rw [← h, BitVec.getLsbD_and, hk, Bool.and_true]

/-- Two words that agree on the bits `lo` to `lo + n - 1` have the same slice there. -/
theorem slice_congr {w v : Word} {lo n : Nat} (h : ∀ k < n, w.getLsbD (lo + k) = v.getLsbD (lo + k)) :
    slice w lo n = slice v lo n := by
  apply BitVec.eq_of_getLsbD_eq
  intro k hk
  simpa [slice, hk] using h k hk

/-- A word whose top four bits are fixed by the mask has the pattern's opcode. -/
theorem slice_opcode_of_mask {w mask pattern : Word} (h : w &&& mask = pattern)
    (hm : ∀ k < 4, mask.getLsbD (12 + k) = true) : slice w 12 4 = slice pattern 12 4 :=
  slice_congr fun k hk => getLsbD_of_mask h (12 + k) (hm k hk)

end Sys2Proof
end

