-- ==== Sys2Proof/Laws/Memory.lean ====
section
/-! SUPPORT. The laws of memory: every operation keeps the canonical form; what a read gives after a write, by address
number. -/

namespace Sys2Proof.Machine

/-- The entries of a canonical memory, one at a time. -/
theorem Memory.wfFrom_cons (lo k : Nat) (v : Word) (m : Memory) :
    Memory.wfFrom lo ((k, v) :: m) = true ↔
      lo ≤ k ∧ k < 65536 ∧ v ≠ unlistedCell ∧ Memory.wfFrom (k + 1) m = true := by
  simp [Memory.wfFrom, and_assoc]

/-- A memory canonical from an address up is so from any lower one. -/
theorem Memory.wfFrom_mono {lo lo' : Nat} (h : lo' ≤ lo) : ∀ m : Memory,
    Memory.wfFrom lo m = true → Memory.wfFrom lo' m = true
  | [], _ => rfl
  | (k, v) :: m, hm => by
    rw [Memory.wfFrom_cons] at hm ⊢
    exact ⟨h.trans hm.1, hm.2⟩

/-- Below its first entry a canonical memory reads as unlisted. -/
theorem Memory.readAt_of_lt {lo a : Nat} (h : a < lo) : ∀ m : Memory,
    Memory.wfFrom lo m = true → m.readAt a = unlistedCell
  | [], _ => rfl
  | (k, v) :: m, hm => by
    have hk := ((Memory.wfFrom_cons lo k v m).1 hm).1
    simp only [Memory.readAt]
    rw [if_neg (by omega), if_neg (by omega)]

/-- A write at or above the lower bound keeps the canonical form. -/
theorem Memory.wfFrom_writeAt {a : Nat} (ha : a < 65536) (v : Word) : ∀ (lo : Nat) (m : Memory), lo ≤ a →
    Memory.wfFrom lo m = true → Memory.wfFrom lo (m.writeAt a v) = true
  | lo, [], hlo, _ => by
    by_cases hv : v = unlistedCell <;> simp [Memory.writeAt, Memory.wfFrom, hv, hlo, ha]
  | lo, (k, u) :: m, hlo, hm => by
    obtain ⟨h1, h2, h3, h4⟩ := (Memory.wfFrom_cons lo k u m).1 hm
    simp only [Memory.writeAt]
    split
    · next hk =>
      rw [Memory.wfFrom_cons]
      exact ⟨h1, h2, h3, Memory.wfFrom_writeAt ha v (k + 1) m hk h4⟩
    · split
      · next _ hk =>
        subst hk
        split
        · exact Memory.wfFrom_mono (by omega) m h4
        · next hv => exact (Memory.wfFrom_cons lo k v m).2 ⟨h1, h2, hv, h4⟩
      · next hk hk' =>
        split
        · exact hm
        · next hv =>
          exact (Memory.wfFrom_cons lo a v _).2
            ⟨hlo, ha, hv, (Memory.wfFrom_cons (a + 1) k u m).2 ⟨by omega, h2, h3, h4⟩⟩

/-- Every write keeps the canonical form. -/
theorem Memory.wf_write (m : Memory) (a v : Word) (h : m.wf = true) : (m.write a v).wf = true :=
  Memory.wfFrom_writeAt a.isLt v 0 m (Nat.zero_le _) h

/-- Placing an image keeps the canonical form. -/
theorem Memory.wf_writeWords : ∀ (ws : List Word) (m : Memory) (origin : Word), m.wf = true →
    (m.writeWords origin ws).wf = true
  | [], _, _, h => h
  | w :: ws, m, origin, h => Memory.wf_writeWords ws _ _ (Memory.wf_write m origin w h)

/-- The empty memory of reset is canonical. -/
theorem State.reset_mem_wf : State.reset.mem.wf = true := rfl

/-- What a cell reads after a write, by address number. -/
theorem Memory.readAt_writeAt (a b : Nat) (v : Word) : ∀ (lo : Nat) (m : Memory), Memory.wfFrom lo m = true →
    (m.writeAt a v).readAt b = if b = a then v else m.readAt b
  | _, [], _ => by
    by_cases hv : v = unlistedCell <;> by_cases hb : b = a <;> simp [Memory.writeAt, Memory.readAt, hv, hb]
    intro h
    exact fun h' => absurd h'.symm hb
  | lo, (k, u) :: m, hm => by
    obtain ⟨h1, h2, h3, h4⟩ := (Memory.wfFrom_cons lo k u m).1 hm
    have ih := Memory.readAt_writeAt a b v (k + 1) m h4
    have hlow : b ≤ k → Memory.readAt m b = unlistedCell := fun h =>
      Memory.readAt_of_lt (lo := k + 1) (by omega) m h4
    have hsmall : b < k → Memory.readAt ((k, u) :: m) b = unlistedCell := fun h =>
      Memory.readAt_of_lt h _ ((Memory.wfFrom_cons k k u m).2 ⟨le_refl k, h2, h3, h4⟩)
    rcases lt_trichotomy k a with hka | rfl | hka
    · rcases lt_trichotomy k b with hkb | rfl | hkb
      · simp [Memory.writeAt, Memory.readAt, hka, hkb, ih]
      · simp [Memory.writeAt, Memory.readAt, hka, hka.ne]
      · simp [Memory.writeAt, Memory.readAt, hka, hkb.not_gt, hkb.ne', (hkb.trans hka).ne]
    · rcases lt_trichotomy k b with hkb | rfl | hkb
      · by_cases hv : v = unlistedCell <;> simp [Memory.writeAt, Memory.readAt, hkb, hkb.ne', hv]
      · by_cases hv : v = unlistedCell <;> simp [Memory.writeAt, Memory.readAt, hv, hlow]
      · by_cases hv : v = unlistedCell <;>
          simp [Memory.writeAt, Memory.readAt, hkb.not_gt, hkb.ne, hkb.ne', hv, hlow hkb.le]
    · by_cases hv : v = unlistedCell
      · rcases eq_or_ne b a with rfl | hba
        · simp [Memory.writeAt, hka.not_gt, hka.ne', hv, hsmall hka]
        · simp [Memory.writeAt, hka.not_gt, hka.ne', hv, hba]
      · rcases lt_trichotomy a b with hab | rfl | hab
        · simp [Memory.writeAt, Memory.readAt, hka.not_gt, hka.ne', hv, hab, hab.ne']
        · simp [Memory.writeAt, Memory.readAt, hka.not_gt, hka.ne', hv]
        · simp [Memory.writeAt, Memory.readAt, hka.not_gt, hka.ne', hv, hab.not_gt, hab.ne, hab.ne',
            (hab.trans hka).not_gt, (hab.trans hka).ne']

end Sys2Proof.Machine
end

