-- ==== Sys2Proof/Laws/Exec.lean ====
section
/-! SUPPORT. What a step can do: it runs the decoded instruction, and one equation per instruction whose meaning has one
next state from every state. -/

namespace Sys2Proof.Machine

/-- A step that has a next state was taken while RUNNING and executed the decoded instruction. -/
theorem step_next {s t : State} (h : step s = .next t) :
    s.run = .running ∧ exec (decode s.fetchWord) s.afterFetch = .next t := by
  unfold step at h
  split at h
  · next hr => exact ⟨hr, h⟩
  · cases h

theorem step_running {s : State} (h : s.run = .running) : step s = exec (decode s.fetchWord) s.afterFetch := by
  unfold step
  rw [h]

theorem exec_br (n z p : Bool) (off : BitVec 9) (s : State) :
    exec (.br n z p off) s = .next (if branchTaken n z p s.cond then s.setPc (s.pcRelative off) else s) := rfl

theorem exec_addReg (dr sr1 sr2 : Reg) (ign : BitVec 2) (s : State) :
    exec (.addReg dr sr1 sr2 ign) s = .next (s.setAndFlag dr (s.readReg sr1 + s.readReg sr2)) := rfl

theorem exec_addImm (dr sr1 : Reg) (imm : BitVec 5) (s : State) :
    exec (.addImm dr sr1 imm) s = .next (s.setAndFlag dr (s.readReg sr1 + sext16 imm)) := rfl

theorem exec_andReg (dr sr1 sr2 : Reg) (ign : BitVec 2) (s : State) :
    exec (.andReg dr sr1 sr2 ign) s = .next (s.setAndFlag dr (s.readReg sr1 &&& s.readReg sr2)) := rfl

theorem exec_andImm (dr sr1 : Reg) (imm : BitVec 5) (s : State) :
    exec (.andImm dr sr1 imm) s = .next (s.setAndFlag dr (s.readReg sr1 &&& sext16 imm)) := rfl

theorem exec_not (dr sr : Reg) (ign : BitVec 6) (s : State) :
    exec (.not dr sr ign) s = .next (s.setAndFlag dr (~~~(s.readReg sr))) := rfl

theorem exec_ld (dr : Reg) (off : BitVec 9) (s : State) :
    exec (.ld dr off) s = .next (s.setAndFlag dr (s.readMem (s.pcRelative off))) := rfl

theorem exec_ldi (dr : Reg) (off : BitVec 9) (s : State) :
    exec (.ldi dr off) s = .next (s.setAndFlag dr (s.readMem (s.indirect off))) := rfl

theorem exec_ldr (dr base : Reg) (off : BitVec 6) (s : State) :
    exec (.ldr dr base off) s = .next (s.setAndFlag dr (s.readMem (s.basePlus base off))) := rfl

theorem exec_lea (dr : Reg) (off : BitVec 9) (s : State) :
    exec (.lea dr off) s = .next (s.setAndFlag dr (s.pcRelative off)) := rfl

theorem exec_st (sr : Reg) (off : BitVec 9) (s : State) :
    exec (.st sr off) s = .next (s.writeMem (s.pcRelative off) (s.readReg sr)) := rfl

theorem exec_sti (sr : Reg) (off : BitVec 9) (s : State) :
    exec (.sti sr off) s = .next (s.writeMem (s.indirect off) (s.readReg sr)) := rfl

theorem exec_str (sr base : Reg) (off : BitVec 6) (s : State) :
    exec (.str sr base off) s = .next (s.writeMem (s.basePlus base off) (s.readReg sr)) := rfl

theorem exec_jmp (base : Reg) (ignHi : BitVec 3) (ignLo : BitVec 6) (s : State) :
    exec (.jmp base ignHi ignLo) s = .next (s.setPc (s.readReg base)) := rfl

theorem exec_jsr (off : BitVec 11) (s : State) :
    exec (.jsr off) s = .next ((s.writeReg .r7 s.pc).setPc (s.pcRelative off)) := rfl

theorem exec_jsrr (base : Reg) (ignHi : BitVec 2) (ignLo : BitVec 6) (s : State) :
    exec (.jsrr base ignHi ignLo) s =
      .next ((s.writeReg .r7 s.pc).setPc ((s.writeReg .r7 s.pc).readReg base)) := rfl

theorem exec_rti (ign : BitVec 12) (s : State) :
    exec (.rti ign) s = .next (s.stop .reservedOpcode (rtiWord ign)) := rfl

theorem exec_res (ign : BitVec 12) (s : State) :
    exec (.res ign) s = .next (s.stop .reservedOpcode (resWord ign)) := rfl

theorem exec_out (ign : BitVec 4) (s : State) :
    exec (.out ign) s = .next (s.trapEnter.consoleOut [lowByte (s.trapEnter.readReg .r0)]) := rfl

theorem exec_halt (ign : BitVec 4) (s : State) :
    exec (.halt ign) s = .next ((s.trapEnter.consoleOut s.haltNotice).stop .haltTrap 0x0000#16) := rfl

theorem exec_puts (ign : BitVec 4) (s : State) : exec (.puts ign) s = s.trapEnter.writeString putsBytes := rfl

theorem exec_putsp (ign : BitVec 4) (s : State) : exec (.putsp ign) s = s.trapEnter.writeString putspBytes := rfl

theorem exec_getc (ign : BitVec 4) (s : State) :
    exec (.getc ign) s = s.trapEnter.consoleIn (trapWord ign 0x20#8) (fun c t => t.writeReg .r0 (zext16 c)) := rfl

theorem exec_inp (ign : BitVec 4) (s : State) :
    exec (.inp ign) s = (s.trapEnter.consoleOut s.inPrompt).consoleIn (trapWord ign 0x23#8)
      (fun c t => (t.consoleOut [c]).writeReg .r0 (zext16 c)) := rfl

/-- A well-formed TRAP of the general row stops with UNKNOWN_TRAP_VECTOR. -/
theorem exec_trap_unknown (ign : BitVec 4) (v : BitVec 8) (s : State) (h : isServiceVector v = false) :
    exec (.trap ign v) s = .next (s.trapEnter.stop .unknownTrapVector (trapWord ign v)) := by
  simp only [isServiceVector, Bool.or_eq_false_iff, beq_eq_false_iff_ne, ne_eq] at h
  unfold exec execTrap
  split <;> simp_all [serviceUnknown]

/-- The TRAP form with any vector runs what the decoder would read (45_trap.md R120, 30_encoding.md R62). -/
theorem exec_trap_eq_decodeTrap (ign : BitVec 4) (v : BitVec 8) (s : State) :
    exec (.trap ign v) s = exec (decodeTrap ign v) s := by
  unfold decodeTrap
  split <;> rfl

/-- What GETC can do when it has a next state. -/
theorem exec_getc_next {ign : BitVec 4} {s t : State} (h : exec (.getc ign) s = .next t) :
    (∃ c, s.nextAnswer = .byte c ∧ t = s.trapEnter.answered.writeReg .r0 (zext16 c)) ∨
      (s.nextAnswer = .fail ∧ t = s.trapEnter.answered.stop .consoleInputFailure (trapWord ign 0x20#8)) := by
  rw [exec_getc] at h
  exact State.consoleIn_next h

/-- What IN can do when it has a next state. -/
theorem exec_inp_next {ign : BitVec 4} {s t : State} (h : exec (.inp ign) s = .next t) :
    (∃ c, s.nextAnswer = .byte c ∧
      t = ((s.trapEnter.consoleOut s.inPrompt).answered.consoleOut [c]).writeReg .r0 (zext16 c)) ∨
      (s.nextAnswer = .fail ∧
        t = (s.trapEnter.consoleOut s.inPrompt).answered.stop .consoleInputFailure (trapWord ign 0x23#8)) := by
  rw [exec_inp] at h
  exact State.consoleIn_next h

/-- What PUTS can do when it has a next state. -/
theorem exec_puts_next {ign : BitVec 4} {s t : State} (h : exec (.puts ign) s = .next t) :
    ∃ bs, scanString putsBytes s.mem cellCount (s.readReg .r0) = some bs ∧ t = s.trapEnter.consoleOut bs := by
  rw [exec_puts] at h
  exact State.writeString_next h

/-- What PUTSP can do when it has a next state. -/
theorem exec_putsp_next {ign : BitVec 4} {s t : State} (h : exec (.putsp ign) s = .next t) :
    ∃ bs, scanString putspBytes s.mem cellCount (s.readReg .r0) = some bs ∧ t = s.trapEnter.consoleOut bs := by
  rw [exec_putsp] at h
  exact State.writeString_next h

theorem exec_getc_of_byte (ign : BitVec 4) {s : State} {c : Byte} (h : s.nextAnswer = .byte c) :
    exec (.getc ign) s = .next (s.trapEnter.answered.writeReg .r0 (zext16 c)) := by
  rw [exec_getc]
  exact State.consoleIn_of_byte h

theorem exec_getc_of_fail (ign : BitVec 4) {s : State} (h : s.nextAnswer = .fail) :
    exec (.getc ign) s = .next (s.trapEnter.answered.stop .consoleInputFailure (trapWord ign 0x20#8)) := by
  rw [exec_getc]
  exact State.consoleIn_of_fail h

theorem exec_getc_of_never (ign : BitVec 4) {s : State} (h : s.nextAnswer = .never) :
    exec (.getc ign) s = .fault (.consoleInputNeverReturns s.trapEnter) := by
  rw [exec_getc]
  exact State.consoleIn_of_never h

theorem exec_inp_of_byte (ign : BitVec 4) {s : State} {c : Byte} (h : s.nextAnswer = .byte c) :
    exec (.inp ign) s =
      .next (((s.trapEnter.consoleOut s.inPrompt).answered.consoleOut [c]).writeReg .r0 (zext16 c)) := by
  rw [exec_inp]
  exact State.consoleIn_of_byte h

theorem exec_inp_of_fail (ign : BitVec 4) {s : State} (h : s.nextAnswer = .fail) :
    exec (.inp ign) s =
      .next ((s.trapEnter.consoleOut s.inPrompt).answered.stop .consoleInputFailure (trapWord ign 0x23#8)) := by
  rw [exec_inp]
  exact State.consoleIn_of_fail h

theorem exec_inp_of_never (ign : BitVec 4) {s : State} (h : s.nextAnswer = .never) :
    exec (.inp ign) s = .fault (.consoleInputNeverReturns (s.trapEnter.consoleOut s.inPrompt)) := by
  rw [exec_inp]
  exact State.consoleIn_of_never h

theorem exec_puts_of_scan (ign : BitVec 4) {s : State} {bs : List Byte}
    (h : scanString putsBytes s.mem cellCount (s.readReg .r0) = some bs) :
    exec (.puts ign) s = .next (s.trapEnter.consoleOut bs) := by
  rw [exec_puts]
  exact State.writeString_of_some h

theorem exec_putsp_of_scan (ign : BitVec 4) {s : State} {bs : List Byte}
    (h : scanString putspBytes s.mem cellCount (s.readReg .r0) = some bs) :
    exec (.putsp ign) s = .next (s.trapEnter.consoleOut bs) := by
  rw [exec_putsp]
  exact State.writeString_of_some h

end Sys2Proof.Machine
end

