-- ==== Sys2Proof/Laws/Flags.lean ====
section
/-! SUPPORT. When `setcc` gives each state (10_state.md R16). -/

namespace Sys2Proof.Machine

theorem condOf_eq_zero (v : Word) : condOf v = .zero ↔ v = 0x0000#16 := by
  unfold condOf
  split <;> [simp_all; (split <;> simp_all)]

theorem condOf_eq_negative (v : Word) : condOf v = .negative ↔ v.getLsbD 15 = true := by
  unfold condOf
  split
  · next h => subst h; decide
  · split <;> simp_all

end Sys2Proof.Machine
end

