-- ==== Sys2Proof/Laws/Operands.lean ====
section
/-! SUPPORT. The spec's sign extension by masks is Lean's `signExtend` (00_scope.md R6). -/

namespace Sys2Proof.Machine

/-- The OR with the mask above the field is two's-complement sign extension, for every field of at most 16 bits. -/
theorem sext16_eq_signExtend {n : Nat} (f : BitVec n) : sext16 f = f.signExtend 16 := by
  apply BitVec.eq_of_getLsbD_eq
  intro k hk
  have hm : (BitVec.ofNat 16 (2 ^ n - 1)).getLsbD k = decide (k < n) := by
    rw [BitVec.getLsbD_ofNat, Nat.testBit_two_pow_sub_one]
    simp [hk]
  have hones : (0xFFFF#16).getLsbD k = true := by
    rw [show (0xFFFF#16) = BitVec.allOnes 16 from rfl, BitVec.getLsbD_allOnes]
    simpa using hk
  rw [BitVec.getLsbD_signExtend]
  unfold sext16
  split
  · next h =>
    rw [BitVec.getLsbD_or, BitVec.getLsbD_and, BitVec.getLsbD_not, hm, hones, BitVec.getLsbD_setWidth]
    by_cases hkn : k < n <;> simp [hk, hkn, h]
  · next h =>
    rw [BitVec.getLsbD_setWidth]
    by_cases hkn : k < n
    · simp [hk, hkn]
    · simp [hk, hkn, h, BitVec.getLsbD_of_ge f k (by omega)]

end Sys2Proof.Machine
end

