-- ==== Sys2Proof/Laws/PerInstr.lean ====
section
/-! SUPPORT. The per-instruction law about encodings: the word of an instruction matches its row of the opcode table
(30_encoding.md R53, R62). -/

namespace Sys2Proof.Laws

/-- The word of the instruction carries the fixed bits of its table row. -/
def EncodingRow.Statement (i : Instr) : Prop := encode i &&& i.row.mask = i.row.pattern

/-- The law is a law about each of the sixteen bits. -/
theorem EncodingRow.of_bits {i : Instr}
    (h : ∀ k < 16, ((encode i).getLsbD k && i.row.mask.getLsbD k) = i.row.pattern.getLsbD k) :
    EncodingRow.Statement i := by
  apply BitVec.eq_of_getLsbD_eq
  intro k hk
  rw [BitVec.getLsbD_and]
  exact h k hk

theorem EncodingRow.br (n : Bool) (z : Bool) (p : Bool) (off : BitVec 9) :
    EncodingRow.Statement (.br n z p off) := by
  refine EncodingRow.of_bits fun k hk => ?_
  simp only [encode, Instr.row, Row.mask, Row.pattern, BitVec.getLsbD_append]
  interval_cases k <;> simp

theorem EncodingRow.addReg (dr : Reg) (sr1 : Reg) (sr2 : Reg) (ign : BitVec 2) :
    EncodingRow.Statement (.addReg dr sr1 sr2 ign) := by
  refine EncodingRow.of_bits fun k hk => ?_
  simp only [encode, Instr.row, Row.mask, Row.pattern, BitVec.getLsbD_append]
  interval_cases k <;> simp

theorem EncodingRow.addImm (dr : Reg) (sr1 : Reg) (imm : BitVec 5) :
    EncodingRow.Statement (.addImm dr sr1 imm) := by
  refine EncodingRow.of_bits fun k hk => ?_
  simp only [encode, Instr.row, Row.mask, Row.pattern, BitVec.getLsbD_append]
  interval_cases k <;> simp

theorem EncodingRow.ld (dr : Reg) (off : BitVec 9) :
    EncodingRow.Statement (.ld dr off) := by
  refine EncodingRow.of_bits fun k hk => ?_
  simp only [encode, Instr.row, Row.mask, Row.pattern, BitVec.getLsbD_append]
  interval_cases k <;> simp

theorem EncodingRow.st (sr : Reg) (off : BitVec 9) :
    EncodingRow.Statement (.st sr off) := by
  refine EncodingRow.of_bits fun k hk => ?_
  simp only [encode, Instr.row, Row.mask, Row.pattern, BitVec.getLsbD_append]
  interval_cases k <;> simp

theorem EncodingRow.jsrr (base : Reg) (ignHi : BitVec 2) (ignLo : BitVec 6) :
    EncodingRow.Statement (.jsrr base ignHi ignLo) := by
  refine EncodingRow.of_bits fun k hk => ?_
  simp only [encode, Instr.row, Row.mask, Row.pattern, BitVec.getLsbD_append]
  interval_cases k <;> simp

theorem EncodingRow.jsr (off : BitVec 11) :
    EncodingRow.Statement (.jsr off) := by
  refine EncodingRow.of_bits fun k hk => ?_
  simp only [encode, Instr.row, Row.mask, Row.pattern, BitVec.getLsbD_append]
  interval_cases k <;> simp

theorem EncodingRow.andReg (dr : Reg) (sr1 : Reg) (sr2 : Reg) (ign : BitVec 2) :
    EncodingRow.Statement (.andReg dr sr1 sr2 ign) := by
  refine EncodingRow.of_bits fun k hk => ?_
  simp only [encode, Instr.row, Row.mask, Row.pattern, BitVec.getLsbD_append]
  interval_cases k <;> simp

theorem EncodingRow.andImm (dr : Reg) (sr1 : Reg) (imm : BitVec 5) :
    EncodingRow.Statement (.andImm dr sr1 imm) := by
  refine EncodingRow.of_bits fun k hk => ?_
  simp only [encode, Instr.row, Row.mask, Row.pattern, BitVec.getLsbD_append]
  interval_cases k <;> simp

theorem EncodingRow.ldr (dr : Reg) (base : Reg) (off : BitVec 6) :
    EncodingRow.Statement (.ldr dr base off) := by
  refine EncodingRow.of_bits fun k hk => ?_
  simp only [encode, Instr.row, Row.mask, Row.pattern, BitVec.getLsbD_append]
  interval_cases k <;> simp

theorem EncodingRow.str (sr : Reg) (base : Reg) (off : BitVec 6) :
    EncodingRow.Statement (.str sr base off) := by
  refine EncodingRow.of_bits fun k hk => ?_
  simp only [encode, Instr.row, Row.mask, Row.pattern, BitVec.getLsbD_append]
  interval_cases k <;> simp

theorem EncodingRow.rti (ign : BitVec 12) :
    EncodingRow.Statement (.rti ign) := by
  refine EncodingRow.of_bits fun k hk => ?_
  simp only [encode, rtiWord, Instr.row, Row.mask, Row.pattern, BitVec.getLsbD_append]
  interval_cases k <;> simp

theorem EncodingRow.not (dr : Reg) (sr : Reg) (ign : BitVec 6) :
    EncodingRow.Statement (.not dr sr ign) := by
  refine EncodingRow.of_bits fun k hk => ?_
  simp only [encode, Instr.row, Row.mask, Row.pattern, BitVec.getLsbD_append]
  interval_cases k <;> simp

theorem EncodingRow.ldi (dr : Reg) (off : BitVec 9) :
    EncodingRow.Statement (.ldi dr off) := by
  refine EncodingRow.of_bits fun k hk => ?_
  simp only [encode, Instr.row, Row.mask, Row.pattern, BitVec.getLsbD_append]
  interval_cases k <;> simp

theorem EncodingRow.sti (sr : Reg) (off : BitVec 9) :
    EncodingRow.Statement (.sti sr off) := by
  refine EncodingRow.of_bits fun k hk => ?_
  simp only [encode, Instr.row, Row.mask, Row.pattern, BitVec.getLsbD_append]
  interval_cases k <;> simp

theorem EncodingRow.jmp (base : Reg) (ignHi : BitVec 3) (ignLo : BitVec 6) :
    EncodingRow.Statement (.jmp base ignHi ignLo) := by
  refine EncodingRow.of_bits fun k hk => ?_
  simp only [encode, Instr.row, Row.mask, Row.pattern, BitVec.getLsbD_append]
  interval_cases k <;> simp

theorem EncodingRow.res (ign : BitVec 12) :
    EncodingRow.Statement (.res ign) := by
  refine EncodingRow.of_bits fun k hk => ?_
  simp only [encode, resWord, Instr.row, Row.mask, Row.pattern, BitVec.getLsbD_append]
  interval_cases k <;> simp

theorem EncodingRow.lea (dr : Reg) (off : BitVec 9) :
    EncodingRow.Statement (.lea dr off) := by
  refine EncodingRow.of_bits fun k hk => ?_
  simp only [encode, Instr.row, Row.mask, Row.pattern, BitVec.getLsbD_append]
  interval_cases k <;> simp

theorem EncodingRow.trap (ign : BitVec 4) (vect : BitVec 8) :
    EncodingRow.Statement (.trap ign vect) := by
  refine EncodingRow.of_bits fun k hk => ?_
  simp only [encode, trapWord, Instr.row, Row.mask, Row.pattern, BitVec.getLsbD_append]
  interval_cases k <;> simp

theorem EncodingRow.getc (ign : BitVec 4) :
    EncodingRow.Statement (.getc ign) := by
  refine EncodingRow.of_bits fun k hk => ?_
  simp only [encode, trapWord, Instr.row, Row.mask, Row.pattern, BitVec.getLsbD_append]
  interval_cases k <;> simp

theorem EncodingRow.out (ign : BitVec 4) :
    EncodingRow.Statement (.out ign) := by
  refine EncodingRow.of_bits fun k hk => ?_
  simp only [encode, trapWord, Instr.row, Row.mask, Row.pattern, BitVec.getLsbD_append]
  interval_cases k <;> simp

theorem EncodingRow.puts (ign : BitVec 4) :
    EncodingRow.Statement (.puts ign) := by
  refine EncodingRow.of_bits fun k hk => ?_
  simp only [encode, trapWord, Instr.row, Row.mask, Row.pattern, BitVec.getLsbD_append]
  interval_cases k <;> simp

theorem EncodingRow.inp (ign : BitVec 4) :
    EncodingRow.Statement (.inp ign) := by
  refine EncodingRow.of_bits fun k hk => ?_
  simp only [encode, trapWord, Instr.row, Row.mask, Row.pattern, BitVec.getLsbD_append]
  interval_cases k <;> simp

theorem EncodingRow.putsp (ign : BitVec 4) :
    EncodingRow.Statement (.putsp ign) := by
  refine EncodingRow.of_bits fun k hk => ?_
  simp only [encode, trapWord, Instr.row, Row.mask, Row.pattern, BitVec.getLsbD_append]
  interval_cases k <;> simp

theorem EncodingRow.halt (ign : BitVec 4) :
    EncodingRow.Statement (.halt ign) := by
  refine EncodingRow.of_bits fun k hk => ?_
  simp only [encode, trapWord, Instr.row, Row.mask, Row.pattern, BitVec.getLsbD_append]
  interval_cases k <;> simp

end Sys2Proof.Laws
end

