-- ==== Sys2Proof/Tests/Slice0.lean ====
section
/-! SUPPORT. The model's own tests: expected results come from spec/95_test_vectors.md (V1 to V91, V-DECODE, V-SETCC, V-SEXT),
and a witness for the hypotheses of each statement. -/

namespace Sys2Proof.Tests

open Sys2Proof.Machine

/-! ## Well-formedness: a general TRAP term with a vector that a service row takes is refused -/

theorem test_wf_trap_x20 : (Instr.trap 0#4 0x20#8).WellFormed = false := by decide
theorem test_wf_trap_x21 : (Instr.trap 0#4 0x21#8).WellFormed = false := by decide
theorem test_wf_trap_x22 : (Instr.trap 0#4 0x22#8).WellFormed = false := by decide
theorem test_wf_trap_x23 : (Instr.trap 0#4 0x23#8).WellFormed = false := by decide
theorem test_wf_trap_x24 : (Instr.trap 0#4 0x24#8).WellFormed = false := by decide
theorem test_wf_trap_x25 : (Instr.trap 0#4 0x25#8).WellFormed = false := by decide
theorem test_wf_trap_neighbours :
    (Instr.trap 0#4 0x1F#8).WellFormed = true ∧ (Instr.trap 0#4 0x26#8).WellFormed = true := by decide

/-! ## Decoding: V-DECODE of spec/95_test_vectors.md, one word per row, and the service rows -/

theorem test_decode_br : decode 0x0402#16 = .br false true false 2#9 := by decide
theorem test_decode_addReg : decode 0x1401#16 = .addReg .r2 .r0 .r1 0#2 := by decide
theorem test_decode_addReg_ignored : decode 0x1419#16 = .addReg .r2 .r0 .r1 3#2 := by decide
theorem test_decode_addImm : decode 0x107D#16 = .addImm .r0 .r1 0x1D#5 := by decide
theorem test_decode_ld : decode 0x2207#16 = .ld .r1 7#9 := by decide
theorem test_decode_st : decode 0x3206#16 = .st .r1 6#9 := by decide
theorem test_decode_jsrr : decode 0x4080#16 = .jsrr .r2 0#2 0#6 := by decide
theorem test_decode_jsr : decode 0x4803#16 = .jsr 3#11 := by decide
theorem test_decode_andReg : decode 0x5042#16 = .andReg .r0 .r1 .r2 0#2 := by decide
theorem test_decode_andImm : decode 0x5020#16 = .andImm .r0 .r0 0#5 := by decide
theorem test_decode_ldr : decode 0x6A80#16 = .ldr .r5 .r2 0#6 := by decide
theorem test_decode_str : decode 0x7AC0#16 = .str .r5 .r3 0#6 := by decide
theorem test_decode_rti : decode 0x8000#16 = .rti 0#12 := by decide
theorem test_decode_not : decode 0x907F#16 = .not .r0 .r1 0x3F#6 := by decide
theorem test_decode_ldi : decode 0xA406#16 = .ldi .r2 6#9 := by decide
theorem test_decode_sti : decode 0xB206#16 = .sti .r1 6#9 := by decide
theorem test_decode_jmp : decode 0xC1C0#16 = .jmp .r7 0#3 0#6 := by decide
theorem test_decode_res : decode 0xD000#16 = .res 0#12 := by decide
theorem test_decode_lea : decode 0xE002#16 = .lea .r0 2#9 := by decide
theorem test_decode_getc : decode 0xF020#16 = .getc 0#4 := by decide
theorem test_decode_out : decode 0xF021#16 = .out 0#4 := by decide
theorem test_decode_puts : decode 0xF022#16 = .puts 0#4 := by decide
theorem test_decode_inp : decode 0xF023#16 = .inp 0#4 := by decide
theorem test_decode_putsp : decode 0xF024#16 = .putsp 0#4 := by decide
theorem test_decode_halt : decode 0xF025#16 = .halt 0#4 := by decide
theorem test_decode_halt_ignored : decode 0xFF25#16 = .halt 0xF#4 := by decide
theorem test_decode_trap_unknown : decode 0xF026#16 = .trap 0#4 0x26#8 := by decide
theorem test_decode_trap_x00 : decode 0xF000#16 = .trap 0#4 0x00#8 := by decide

theorem test_decodeTableWord : decodeTableWord 16 0x1401 = some (.addReg .r2 .r0 .r1 0#2) := by decide
theorem test_decodeTableWord_longer : decodeTableWord 17 0x1401 = none := by decide
theorem test_withFetchWord : (State.reset.withFetchWord 16 0x907F).fetchWord = 0x907F#16 := by decide

/-! ## `setcc`, sign and zero extension (V-SETCC, V-SEXT) -/

theorem test_setcc : [0x0000#16, 0x0001#16, 0x7FFF#16, 0x8000#16, 0x8001#16, 0xFFFF#16].map condOf =
    [.zero, .positive, .positive, .negative, .negative, .negative] := by decide
theorem test_sext5 : [0x00#5, 0x01#5, 0x0F#5, 0x10#5, 0x11#5, 0x1F#5].map sext16 =
    [0x0000#16, 0x0001#16, 0x000F#16, 0xFFF0#16, 0xFFF1#16, 0xFFFF#16] := by decide
theorem test_sext6 : [0x00#6, 0x1F#6, 0x20#6, 0x21#6, 0x3F#6].map sext16 =
    [0x0000#16, 0x001F#16, 0xFFE0#16, 0xFFE1#16, 0xFFFF#16] := by decide
theorem test_sext9 : [0x000#9, 0x0FF#9, 0x100#9, 0x101#9, 0x1FF#9].map sext16 =
    [0x0000#16, 0x00FF#16, 0xFF00#16, 0xFF01#16, 0xFFFF#16] := by decide
theorem test_sext11 : [0x000#11, 0x3FF#11, 0x400#11, 0x401#11, 0x7FF#11].map sext16 =
    [0x0000#16, 0x03FF#16, 0xFC00#16, 0xFC01#16, 0xFFFF#16] := by decide
theorem test_zext : [0x00#8, 0x7F#8, 0x80#8, 0xFF#8].map zext16 =
    [0x0000#16, 0x007F#16, 0x0080#16, 0x00FF#16] := by decide

/-! ## One step per vector -/

/-- The start state of a vector: the word placed at `at`, COND, registers and cells as listed, all else as at reset. -/
def start (w pc : Word) (c : Cond) (regs : List (Reg × Word)) (cells : List (Word × Word)) : State :=
  let s := { State.reset with pc := pc, cond := c }
  let s := regs.foldl (fun s rv => s.writeReg rv.1 rv.2) s
  (cells.foldl (fun s av => s.writeMem av.1 av.2) s).withFetchWord 16 w.toNat

/-- A start state whose first console answers are fixed. -/
def startAnswering (s : State) (as : List ConsoleAnswer) : State := { s with answers := as }

/-- What a next state shows. -/
def seen {α : Type} (r : Host.Outcome State Fault Refusal) (f : State → α) : Option α :=
  match r with
  | .next t => some (f t)
  | .fault _ => none
  | .refused _ => none

/-- V3: signed overflow, silent. -/
theorem test_addReg_overflow :
    seen (step (start 0x1001#16 0x3000#16 .zero [(.r0, 0x7FFF#16), (.r1, 0x0001#16)] []))
      (fun t => (t.readReg .r0, t.pc, t.cond)) =
      some (0x8000#16, 0x3001#16, .negative) := by decide

/-- V4. -/
theorem test_addReg_carry_lost :
    seen (step (start 0x1001#16 0x3000#16 .zero [(.r0, 0xFFFF#16), (.r1, 0x0001#16)] []))
      (fun t => (t.readReg .r0, t.pc, t.cond)) =
      some (0x0000#16, 0x3001#16, .zero) := by decide

/-- V7 (source example S3). -/
theorem test_addImm_minus3 :
    seen (step (start 0x107D#16 0x3000#16 .zero [(.r1, 0x0005#16)] []))
      (fun t => (t.readReg .r0, t.pc, t.cond)) =
      some (0x0002#16, 0x3001#16, .positive) := by decide

/-- V85: fetched at FFFF. -/
theorem test_addImm_pc_wraps :
    seen (step (start 0x1021#16 0xFFFF#16 .zero [] []))
      (fun t => (t.readReg .r0, t.pc, t.cond)) =
      some (0x0001#16, 0x0000#16, .positive) := by decide

/-- V11 (source example S4). -/
theorem test_andReg :
    seen (step (start 0x5042#16 0x3000#16 .zero [(.r1, 0x000C#16), (.r2, 0x000A#16)] []))
      (fun t => (t.readReg .r0, t.pc, t.cond)) =
      some (0x0008#16, 0x3001#16, .positive) := by decide

/-- V12. -/
theorem test_andReg_same :
    seen (step (start 0x5241#16 0x3000#16 .zero [(.r1, 0x8001#16)] []))
      (fun t => (t.readReg .r1, t.pc, t.cond)) =
      some (0x8001#16, 0x3001#16, .negative) := by decide

/-- V15: the immediate is sign-extended. -/
theorem test_andImm_signed :
    seen (step (start 0x5070#16 0x3000#16 .zero [(.r1, 0x12FF#16)] []))
      (fun t => (t.readReg .r0, t.pc, t.cond)) =
      some (0x12F0#16, 0x3001#16, .positive) := by decide

/-- V13. -/
theorem test_andImm_clear :
    seen (step (start 0x5020#16 0x3000#16 .negative [(.r0, 0xBEEF#16)] []))
      (fun t => (t.readReg .r0, t.pc, t.cond)) =
      some (0x0000#16, 0x3001#16, .zero) := by decide

/-- V18 (source example S5), ignored bits 000000. -/
theorem test_not :
    seen (step (start 0x9040#16 0x3000#16 .zero [(.r1, 0x0000#16)] []))
      (fun t => (t.readReg .r0, t.pc, t.cond)) =
      some (0xFFFF#16, 0x3001#16, .negative) := by decide

/-- V20. -/
theorem test_not_in_place :
    seen (step (start 0x927F#16 0x3000#16 .zero [(.r1, 0x8000#16)] []))
      (fun t => (t.readReg .r1, t.pc, t.cond)) =
      some (0x7FFF#16, 0x3001#16, .positive) := by decide

/-- V22 (source example S6). -/
theorem test_br_not_taken :
    seen (step (start 0x0402#16 0x3000#16 .negative [] []))
      (fun t => (t.pc, t.cond)) =
      some (0x3001#16, .negative) := by decide

/-- V29: the target wraps to FFFF. -/
theorem test_br_wraps :
    seen (step (start 0x0FFE#16 0x0000#16 .zero [] []))
      (fun t => (t.pc, t.cond)) =
      some (0xFFFF#16, .zero) := by decide

/-- V31. -/
theorem test_jmp_ignored_bits :
    seen (step (start 0xCEFF#16 0x3000#16 .zero [(.r3, 0x4000#16)] []))
      (fun t => (t.pc, t.cond)) =
      some (0x4000#16, .zero) := by decide

/-- V32. -/
theorem test_jmp_ret :
    seen (step (start 0xC1C0#16 0x3007#16 .zero [(.r7, 0x3002#16)] []))
      (fun t => (t.readReg .r7, t.pc, t.cond)) =
      some (0x3002#16, 0x3002#16, .zero) := by decide

/-- V33 (source example S7). -/
theorem test_jsr :
    seen (step (start 0x4803#16 0x3001#16 .negative [] []))
      (fun t => (t.readReg .r7, t.pc, t.cond)) =
      some (0x3002#16, 0x3005#16, .negative) := by decide

/-- V34. -/
theorem test_jsr_back :
    seen (step (start 0x4C00#16 0x3000#16 .zero [] []))
      (fun t => (t.readReg .r7, t.pc, t.cond)) =
      some (0x3001#16, 0x2C01#16, .zero) := by decide

/-- V39: ignored bits set. -/
theorem test_jsrr :
    seen (step (start 0x46BF#16 0x3000#16 .zero [(.r2, 0x5000#16)] []))
      (fun t => (t.readReg .r7, t.pc, t.cond)) =
      some (0x3001#16, 0x5000#16, .zero) := by decide

/-- V38: R7 is written before it is read. -/
theorem test_jsrr_r7 :
    seen (step (start 0x41C0#16 0x3000#16 .zero [(.r7, 0x1234#16)] []))
      (fun t => (t.readReg .r7, t.pc, t.cond)) =
      some (0x3001#16, 0x3001#16, .zero) := by decide

/-- V41. -/
theorem test_ld_own_word :
    seen (step (start 0x23FF#16 0x3000#16 .zero [] []))
      (fun t => (t.readReg .r1, t.pc, t.cond)) =
      some (0x23FF#16, 0x3001#16, .positive) := by decide

/-- V86: fetched at FFFF, reads cell 0000. -/
theorem test_ld_top :
    seen (step (start 0x2200#16 0xFFFF#16 .zero [] [(0x0000#16, 0x1234#16)]))
      (fun t => (t.readReg .r1, t.pc, t.cond)) =
      some (0x1234#16, 0x0000#16, .positive) := by decide

/-- V44 (source example S8). -/
theorem test_ldi :
    seen (step (start 0xA406#16 0x3003#16 .zero [] [(0x300A#16, 0x4000#16), (0x4000#16, 0xFFF9#16)]))
      (fun t => (t.readReg .r2, t.pc, t.cond)) =
      some (0xFFF9#16, 0x3004#16, .negative) := by decide

/-- V45. -/
theorem test_ldi_self :
    seen (step (start 0xA200#16 0x3000#16 .zero [] [(0x3001#16, 0x3001#16)]))
      (fun t => (t.readReg .r1, t.pc, t.cond)) =
      some (0x3001#16, 0x3001#16, .positive) := by decide

/-- V48: the address wraps to FFFF. -/
theorem test_ldr_wraps_down :
    seen (step (start 0x62BF#16 0x3000#16 .zero [(.r2, 0x0000#16)] [(0xFFFF#16, 0x8000#16)]))
      (fun t => (t.readReg .r1, t.pc, t.cond)) =
      some (0x8000#16, 0x3001#16, .negative) := by decide

/-- V49: the old base is used. -/
theorem test_ldr_base_is_dest :
    seen (step (start 0x6240#16 0x3000#16 .zero [(.r1, 0x4000#16)] [(0x4000#16, 0x4002#16)]))
      (fun t => (t.readReg .r1, t.pc, t.cond)) =
      some (0x4002#16, 0x3001#16, .positive) := by decide

/-- V52. -/
theorem test_lea_zero :
    seen (step (start 0xE1FF#16 0x0000#16 .positive [] []))
      (fun t => (t.readReg .r0, t.pc, t.cond)) =
      some (0x0000#16, 0x0001#16, .zero) := by decide

/-- V53. -/
theorem test_lea_negative :
    seen (step (start 0xE000#16 0x7FFF#16 .zero [] []))
      (fun t => (t.readReg .r0, t.pc, t.cond)) =
      some (0x8000#16, 0x8000#16, .negative) := by decide

/-- V55. -/
theorem test_st_own_cell :
    seen (step (start 0x33FF#16 0x3000#16 .zero [(.r1, 0xABCD#16)] []))
      (fun t => (t.readMem 0x3000#16, t.pc, t.cond)) =
      some (0xABCD#16, 0x3001#16, .zero) := by decide

/-- V89. -/
theorem test_st_top :
    seen (step (start 0x3200#16 0xFFFE#16 .zero [(.r1, 0x0777#16)] []))
      (fun t => (t.readMem 0xFFFF#16, t.pc, t.cond)) =
      some (0x0777#16, 0xFFFF#16, .zero) := by decide

/-- V56 (source example S8). -/
theorem test_sti :
    seen (step (start 0xB206#16 0x3003#16 .zero [(.r1, 0xFFF9#16)] [(0x300A#16, 0x4000#16)]))
      (fun t => (t.readMem 0x4000#16, t.readMem 0x300A#16, t.pc, t.cond)) =
      some (0xFFF9#16, 0x4000#16, 0x3004#16, .zero) := by decide

/-- V57: the pointer cell points to itself. -/
theorem test_sti_self :
    seen (step (start 0xB200#16 0x3000#16 .zero [(.r1, 0x0042#16)] [(0x3001#16, 0x3001#16)]))
      (fun t => (t.readMem 0x3001#16, t.pc, t.cond)) =
      some (0x0042#16, 0x3001#16, .zero) := by decide

/-- V59. -/
theorem test_str_wraps :
    seen (step (start 0x7281#16 0x3000#16 .zero [(.r1, 0x0077#16), (.r2, 0xFFFF#16)] []))
      (fun t => (t.readMem 0x0000#16, t.pc, t.cond)) =
      some (0x0077#16, 0x3001#16, .zero) := by decide

/-- V60. -/
theorem test_str_base_is_source :
    seen (step (start 0x7480#16 0x3000#16 .zero [(.r2, 0x4000#16)] []))
      (fun t => (t.readMem 0x4000#16, t.pc, t.cond)) =
      some (0x4000#16, 0x3001#16, .zero) := by decide

/-- V65: zero-extended, no flag update. -/
theorem test_getc_high_byte :
    seen (step (startAnswering (start 0xF020#16 0x3000#16 .zero [(.r0, 0x1234#16)] []) [.byte 0xE9#8]))
      (fun t => (t.readReg .r0, t.readReg .r7, t.pc, t.cond, t.out)) =
      some (0x00E9#16, 0x3001#16, 0x3001#16, .zero, []) := by decide

/-- V66. -/
theorem test_getc_fail :
    seen (step (startAnswering (start 0xF020#16 0x3000#16 .zero [(.r0, 0x1234#16)] []) [.fail]))
      (fun t => (t.readReg .r0, t.readReg .r7, t.run, t.cause, t.causeInfo)) =
      some (0x1234#16, 0x3001#16, .halted, .consoleInputFailure, 0xF020#16) := by decide

/-- V67. -/
theorem test_out :
    seen (step (start 0xF021#16 0x3000#16 .zero [(.r0, 0x1241#16)] []))
      (fun t => (t.readReg .r7, t.pc, t.cond, t.out)) =
      some (0x3001#16, 0x3001#16, .zero, [0x41#8]) := by decide

/-- V87. -/
theorem test_out_top :
    seen (step (start 0xF021#16 0xFFFF#16 .zero [(.r0, 0x0041#16), (.r7, 0x1111#16)] []))
      (fun t => (t.readReg .r7, t.pc, t.cond, t.out)) =
      some (0x0000#16, 0x0000#16, .zero, [0x41#8]) := by decide

/-- V70. -/
theorem test_puts_high_bytes :
    seen (step (start 0xF022#16 0x3000#16 .zero [(.r0, 0x4000#16)] [(0x4000#16, 0x1241#16), (0x4001#16, 0x0100#16), (0x4002#16, 0x0042#16)]))
      (fun t => (t.readReg .r7, t.pc, t.cond, t.out)) =
      some (0x3001#16, 0x3001#16, .zero, [0x41#8, 0x00#8, 0x42#8]) := by decide

/-- V71. -/
theorem test_puts_wraps :
    seen (step (start 0xF022#16 0x3000#16 .zero [(.r0, 0xFFFF#16)] [(0xFFFF#16, 0x0041#16), (0x0000#16, 0x0042#16)]))
      (fun t => (t.readReg .r7, t.pc, t.cond, t.out)) =
      some (0x3001#16, 0x3001#16, .zero, [0x41#8, 0x42#8]) := by decide

/-- V72. -/
theorem test_inp :
    seen (step (startAnswering (start 0xF023#16 0x3000#16 .negative [] []) [.byte 0x79#8]))
      (fun t => (t.readReg .r0, t.readReg .r7, t.pc, t.cond, t.out)) =
      some (0x0079#16, 0x3001#16, 0x3001#16, .negative, [0x45#8, 0x6E#8, 0x74#8, 0x65#8, 0x72#8, 0x20#8, 0x61#8, 0x20#8, 0x63#8, 0x68#8, 0x61#8, 0x72#8, 0x61#8, 0x63#8, 0x74#8, 0x65#8, 0x72#8, 0x3A#8, 0x20#8, 0x79#8]) := by decide

/-- V73. -/
theorem test_inp_fail :
    seen (step (startAnswering (start 0xF023#16 0x3000#16 .zero [(.r0, 0x1234#16)] []) [.fail]))
      (fun t => (t.readReg .r0, t.readReg .r7, t.out, t.run, t.cause, t.causeInfo)) =
      some (0x1234#16, 0x3001#16, [0x45#8, 0x6E#8, 0x74#8, 0x65#8, 0x72#8, 0x20#8, 0x61#8, 0x20#8, 0x63#8, 0x68#8, 0x61#8, 0x72#8, 0x61#8, 0x63#8, 0x74#8, 0x65#8, 0x72#8, 0x3A#8, 0x20#8], .halted, .consoleInputFailure, 0xF023#16) := by decide

/-- V74. -/
theorem test_putsp :
    seen (step (start 0xF024#16 0x3000#16 .zero [(.r0, 0x4000#16)] [(0x4000#16, 0x6548#16), (0x4001#16, 0x0021#16)]))
      (fun t => (t.readReg .r7, t.pc, t.cond, t.out)) =
      some (0x3001#16, 0x3001#16, .zero, [0x48#8, 0x65#8, 0x21#8]) := by decide

/-- V75. -/
theorem test_putsp_zero_low_byte :
    seen (step (start 0xF024#16 0x3000#16 .zero [(.r0, 0x4000#16)] [(0x4000#16, 0x4100#16)]))
      (fun t => (t.readReg .r7, t.pc, t.cond, t.out)) =
      some (0x3001#16, 0x3001#16, .zero, [0x00#8, 0x41#8]) := by decide

/-- V76. -/
theorem test_halt :
    seen (step (start 0xF025#16 0x3005#16 .positive [] []))
      (fun t => (t.readReg .r7, t.out, t.run, t.cause, t.causeInfo)) =
      some (0x3006#16, [0x48#8, 0x41#8, 0x4C#8, 0x54#8, 0x0A#8], .halted, .haltTrap, 0x0000#16) := by decide

/-- V77. -/
theorem test_halt_ignored_bits :
    seen (step (start 0xFF25#16 0x3000#16 .zero [] []))
      (fun t => (t.readReg .r7, t.out, t.run, t.cause, t.causeInfo)) =
      some (0x3001#16, [0x48#8, 0x41#8, 0x4C#8, 0x54#8, 0x0A#8], .halted, .haltTrap, 0x0000#16) := by decide

/-- V79. -/
theorem test_trap_unknown :
    seen (step (start 0xF026#16 0x3000#16 .zero [(.r7, 0x1111#16)] []))
      (fun t => (t.readReg .r7, t.pc, t.run, t.cause, t.causeInfo)) =
      some (0x3001#16, 0x3001#16, .halted, .unknownTrapVector, 0xF026#16) := by decide

/-- V80. -/
theorem test_trap_xff :
    seen (step (start 0xF0FF#16 0x3000#16 .zero [] []))
      (fun t => (t.readReg .r7, t.pc, t.run, t.cause, t.causeInfo)) =
      some (0x3001#16, 0x3001#16, .halted, .unknownTrapVector, 0xF0FF#16) := by decide

/-- V82. -/
theorem test_rti :
    seen (step (start 0x8ABC#16 0x3000#16 .zero [] []))
      (fun t => (t.pc, t.cond, t.run, t.cause, t.causeInfo)) =
      some (0x3001#16, .zero, .halted, .reservedOpcode, 0x8ABC#16) := by decide

/-- V83. -/
theorem test_res :
    seen (step (start 0xD000#16 0x3000#16 .positive [(.r0, 0x1111#16)] []))
      (fun t => (t.readReg .r0, t.pc, t.run, t.cause, t.causeInfo)) =
      some (0x1111#16, 0x3001#16, .halted, .reservedOpcode, 0xD000#16) := by decide

/-- V90: IN whose console read never returns has no next state, and the prompt is already written. -/
theorem test_inp_never :
    step (startAnswering (start 0xF023#16 0x3000#16 .zero [] []) [.never]) =
      .fault (.consoleInputNeverReturns
        { startAnswering (start 0xF023#16 0x3000#16 .zero [(.r7, 0x3001#16)] []) [.never] with
          pc := 0x3001#16, out := resetInPrompt }) := rfl

/-- The codes of table T-R151 (60_exceptions.md R151). -/
theorem test_cause_codes :
    (Cause.none.code, Cause.haltTrap.code, Cause.reservedOpcode.code, Cause.unknownTrapVector.code,
      Cause.consoleInputFailure.code) = (0, 1, 2, 3, 4) := by decide

/-- No step from HALTED (40_cycle.md R75). -/
theorem test_halted_has_no_step :
    step { State.reset with run := .halted, cause := .haltTrap } = .fault (.notRunning .haltTrap) := rfl

/-- The mask test of BR on every mask and COND (V-BR). -/
theorem test_branch_table :
    [(false, false, false), (false, false, true), (false, true, false), (false, true, true), (true, false, false),
      (true, false, true), (true, true, false), (true, true, true)].map
      (fun m => [Cond.negative, .zero, .positive].map (branchTaken m.1 m.2.1 m.2.2)) =
    [[false, false, false], [false, false, true], [false, true, false], [false, true, true], [true, false, false],
      [true, false, true], [true, true, false], [true, true, true]] := by decide
/-! ## Witnesses: for each statement with hypotheses, states and operands that meet them, at the ends of each range -/

/-- A memory whose cells `lo` to `lo + n - 1` hold 0x0041 and whose other cells are 0. -/
def filled (lo n : Nat) : Memory := (List.range' lo n).map fun a => (a, 0x0041#16)

theorem filled_readAt : ∀ (n lo a : Nat), (filled lo n).readAt a = if lo ≤ a ∧ a < lo + n then 0x0041#16 else 0x0000#16
  | 0, lo, a => by
    rw [if_neg (by omega)]
    rfl
  | n + 1, lo, a => by
    have ih := filled_readAt n (lo + 1) a
    simp only [filled, List.range'_succ, List.map_cons, Memory.readAt] at ih ⊢
    rw [ih]
    split
    · next h => split <;> split <;> first | rfl | omega
    · split
      · next h => rw [if_pos (by omega)]
      · rw [if_neg (by omega)]
        rfl

theorem filled_wf : ∀ (n lo : Nat), lo + n ≤ 65536 → Memory.wfFrom lo (filled lo n) = true
  | 0, _, _ => rfl
  | n + 1, lo, h => by
    simp only [filled, List.range'_succ, List.map_cons]
    exact (Memory.wfFrom_cons _ _ _ _).2 ⟨le_refl _, by omega, by decide, filled_wf n (lo + 1) (by omega)⟩

/-- `State.reset` with the first `n` cells of memory filled: with 65,536 no cell is zero, with 65,535 cell 0xFFFF alone. -/
def resetFilled (n : Nat) : State := { State.reset with mem := filled 0 n }

theorem resetFilled_wf (n : Nat) (h : n ≤ 65536) : (resetFilled n).mem.wf = true := filled_wf n 0 (by omega)

theorem resetFilled_read (n : Nat) (a : Word) :
    (resetFilled n).readMem a = if a.toNat < n then 0x0041#16 else 0x0000#16 := by
  have h : (resetFilled n).readMem a = _ := filled_readAt n 0 a.toNat
  rw [h]
  simp

theorem resetFilled_r0 (n : Nat) : (resetFilled n).readReg .r0 = 0#16 := rfl

theorem resetFilled_nonzero (n j : Nat) (hj : j < n) (hn : j < 65536) :
    (resetFilled n).readMem ((resetFilled n).readReg .r0 + BitVec.ofNat 16 j) ≠ 0x0000#16 := by
  rw [resetFilled_r0, resetFilled_read, BitVec.zero_add, BitVec.toNat_ofNat, Nat.mod_eq_of_lt (by omega), if_pos hj]
  decide

theorem resetFilled_zero (n j : Nat) (hj : n ≤ j) (hn : j < 65536) :
    (resetFilled n).readMem ((resetFilled n).readReg .r0 + BitVec.ofNat 16 j) = 0x0000#16 := by
  rw [resetFilled_r0, resetFilled_read, BitVec.zero_add, BitVec.toNat_ofNat, Nat.mod_eq_of_lt (by omega),
    if_neg (by omega)]

theorem resetFilled_all (n : Nat) (hn : 65536 ≤ n) (a : Word) : (resetFilled n).readMem a ≠ 0x0000#16 := by
  rw [resetFilled_read, if_pos (lt_of_lt_of_le a.isLt hn)]
  decide

/-- `State.reset` with the answers of the console fixed. -/
def resetAnswering (as : List ConsoleAnswer) : State := { State.reset with answers := as }

/-- A halted state. -/
def halted : State := { State.reset with run := .halted, cause := .haltTrap }

/-- A scan over filled cells alone reads one byte 0x41 from each. -/
theorem resetFilled_scanned (n k : Nat) (hn : 65536 ≤ n) (a : Word) :
    scannedBytes putsBytes (resetFilled n).mem a k = List.replicate k 0x41#8 := by
  induction k with
  | zero => rfl
  | succ k ih =>
    have hr : (resetFilled n).mem.read (a + BitVec.ofNat 16 k) = 0x0041#16 := by
      have h := resetFilled_read n (a + BitVec.ofNat 16 k)
      rw [if_pos (lt_of_lt_of_le (BitVec.isLt _) hn)] at h
      exact h
    rw [scannedBytes_succ, ih, hr, List.replicate_succ']
    rfl

/-- V91: PUTS with every cell nonzero has no next state, with R7 written and the core not HALTED, and each pass appends the
low byte of every cell. -/
theorem test_puts_never (n : Nat) (hn : 65536 ≤ n) :
    exec (.puts 0#4) (resetFilled n) =
      .fault (.stringScanNeverEnds (resetFilled n).trapEnter (List.replicate cellCount 0x41#8)) ∧
    (resetFilled n).trapEnter.readReg .r7 = 0x3000#16 ∧ (resetFilled n).trapEnter.run = .running := by
  refine ⟨?_, rfl, rfl⟩
  rw [exec_puts, State.writeString_of_none (s := (resetFilled n).trapEnter)
    (scanString_no_zero _ _ (resetFilled_all n hn) _ _)]
  have turn : scannedBytes putsBytes (resetFilled n).trapEnter.mem ((resetFilled n).trapEnter.readReg .r0) cellCount =
      List.replicate cellCount 0x41#8 := resetFilled_scanned n cellCount hn _
  rw [turn]

theorem witness_DecodeOfEncodeIsIdentity :
    (Instr.trap 0xF#4 0x26#8).WellFormed = true ∧ (Instr.jmp .r7 7#3 0x3F#6).WellFormed = true ∧
      (Instr.halt 0#4).WellFormed = true := by decide

/-- Ignored bits of NOT, JMP, HALT, RTI and GETC; NOT and JMP do not stop, HALT records no word, and GETC answered by a byte,
or by nothing, does not stop. -/
theorem witness_IgnoredBitsHaveNoEffect :
    [(0x907F#16, 0x9040#16), (0xC0C0#16, 0xCEFF#16), (0xF025#16, 0xFF25#16), (0x8000#16, 0x8FFF#16),
      (0xF020#16, 0xFF20#16)].all (fun wv =>
      (wv.1 ^^^ wv.2) &&& ~~~(decode wv.1).row.ignored == 0x0000#16) = true ∧
    stopOf (decode 0x907F#16) State.reset = none ∧ stopOf (decode 0xC0C0#16) State.reset = none ∧
    (decode 0xF025#16).row = .halt ∧ stopOf (decode 0xF020#16) (resetAnswering [.byte 0x41#8]) = none ∧
    stopOf (decode 0xF023#16) (resetAnswering [.never]) = none := by decide

theorem witness_SignExtensionKeepsSignedValue :
    (0x0F#5).msb = false ∧ (0x10#5).msb = true ∧ (0x1F#6).msb = false ∧ (0x20#6).msb = true ∧
      (0x0FF#9).msb = false ∧ (0x100#9).msb = true ∧ (0x3FF#11).msb = false ∧ (0x400#11).msb = true ∧
      (0xFFF0#16).toInt = (0x10#5).toInt ∧ (0x03FF#16).toInt = (0x3FF#11).toInt := by decide

/-! The lowest and highest word of each row, for the clause of each statement that says what its words decode to. -/

theorem witness_AddRegisterForm :
    0x1000#16 &&& 0xF020#16 = 0x1000#16 ∧ 0x1FDF#16 &&& 0xF020#16 = 0x1000#16 := by decide
theorem witness_AddImmediateForm :
    0x1020#16 &&& 0xF020#16 = 0x1020#16 ∧ 0x1FFF#16 &&& 0xF020#16 = 0x1020#16 := by decide
theorem witness_AndRegisterForm :
    0x5000#16 &&& 0xF020#16 = 0x5000#16 ∧ 0x5FDF#16 &&& 0xF020#16 = 0x5000#16 := by decide
theorem witness_AndImmediateForm :
    0x5020#16 &&& 0xF020#16 = 0x5020#16 ∧ 0x5FFF#16 &&& 0xF020#16 = 0x5020#16 := by decide
theorem witness_NotComplementsRegister :
    0x9000#16 &&& 0xF000#16 = 0x9000#16 ∧ 0x9FFF#16 &&& 0xF000#16 = 0x9000#16 := by decide
theorem witness_BranchFollowsCondition_words :
    0x0000#16 &&& 0xF000#16 = 0x0000#16 ∧ 0x0FFF#16 &&& 0xF000#16 = 0x0000#16 := by decide
theorem witness_JumpGoesToBaseRegister :
    0xC000#16 &&& 0xF000#16 = 0xC000#16 ∧ 0xCFFF#16 &&& 0xF000#16 = 0xC000#16 := by decide
theorem witness_JsrLinksAndBranches :
    0x4800#16 &&& 0xF800#16 = 0x4800#16 ∧ 0x4FFF#16 &&& 0xF800#16 = 0x4800#16 := by decide
theorem witness_JsrrLinksThenReadsBase_words :
    0x4000#16 &&& 0xF800#16 = 0x4000#16 ∧ 0x47FF#16 &&& 0xF800#16 = 0x4000#16 := by decide
theorem witness_LdLoadsPcRelative :
    0x2000#16 &&& 0xF000#16 = 0x2000#16 ∧ 0x2FFF#16 &&& 0xF000#16 = 0x2000#16 := by decide
theorem witness_LdiLoadsThroughPointer :
    0xA000#16 &&& 0xF000#16 = 0xA000#16 ∧ 0xAFFF#16 &&& 0xF000#16 = 0xA000#16 := by decide
theorem witness_LdrLoadsBasePlusOffset :
    0x6000#16 &&& 0xF000#16 = 0x6000#16 ∧ 0x6FFF#16 &&& 0xF000#16 = 0x6000#16 := by decide
theorem witness_LeaFormsAddressAndSetsFlags :
    0xE000#16 &&& 0xF000#16 = 0xE000#16 ∧ 0xEFFF#16 &&& 0xF000#16 = 0xE000#16 := by decide
theorem witness_StStoresPcRelative_words :
    0x3000#16 &&& 0xF000#16 = 0x3000#16 ∧ 0x3FFF#16 &&& 0xF000#16 = 0x3000#16 := by decide
theorem witness_StiStoresThroughPointer_words :
    0xB000#16 &&& 0xF000#16 = 0xB000#16 ∧ 0xBFFF#16 &&& 0xF000#16 = 0xB000#16 := by decide
theorem witness_StrStoresBasePlusOffset_words :
    0x7000#16 &&& 0xF000#16 = 0x7000#16 ∧ 0x7FFF#16 &&& 0xF000#16 = 0x7000#16 := by decide
theorem witness_TrapLinksAndDispatches_words :
    0xF000#16 &&& 0xF000#16 = 0xF000#16 ∧ 0xFFFF#16 &&& 0xF000#16 = 0xF000#16 := by decide
theorem witness_GetcReadsByteIntoR0_words :
    0xF020#16 &&& 0xF0FF#16 = 0xF020#16 ∧ 0xFF20#16 &&& 0xF0FF#16 = 0xF020#16 := by decide
theorem witness_OutWritesLowByte :
    0xF021#16 &&& 0xF0FF#16 = 0xF021#16 ∧ 0xFF21#16 &&& 0xF0FF#16 = 0xF021#16 := by decide
theorem witness_PutsWritesStringToZeroCell_words :
    0xF022#16 &&& 0xF0FF#16 = 0xF022#16 ∧ 0xFF22#16 &&& 0xF0FF#16 = 0xF022#16 := by decide
theorem witness_InPromptsReadsAndEchoes_words :
    0xF023#16 &&& 0xF0FF#16 = 0xF023#16 ∧ 0xFF23#16 &&& 0xF0FF#16 = 0xF023#16 := by decide
theorem witness_PutspWritesPackedString_words :
    0xF024#16 &&& 0xF0FF#16 = 0xF024#16 ∧ 0xFF24#16 &&& 0xF0FF#16 = 0xF024#16 := by decide
theorem witness_HaltWritesNoticeAndStops :
    0xF025#16 &&& 0xF0FF#16 = 0xF025#16 ∧ 0xFF25#16 &&& 0xF0FF#16 = 0xF025#16 := by decide
theorem witness_RtiStopsWithReservedOpcode :
    0x8000#16 &&& 0xF000#16 = 0x8000#16 ∧ 0x8FFF#16 &&& 0xF000#16 = 0x8000#16 := by decide
theorem witness_ResStopsWithReservedOpcode :
    0xD000#16 &&& 0xF000#16 = 0xD000#16 ∧ 0xDFFF#16 &&& 0xF000#16 = 0xD000#16 := by decide

/-- Taken by n, by z, by p, and not taken although two mask bits are set. -/
theorem witness_BranchFollowsCondition :
    (({ State.reset with cond := .negative } : State).cond = .negative ∧ State.reset.cond = .zero ∧
      ({ State.reset with cond := .positive } : State).cond = .positive) ∧
    ¬((true = true ∧ State.reset.cond = .negative) ∨ (false = true ∧ State.reset.cond = .zero) ∨
      (true = true ∧ State.reset.cond = .positive)) := by decide

theorem witness_JsrrLinksThenReadsBase : Reg.r6 ≠ Reg.r7 ∧ Reg.r7 = Reg.r7 := by decide

/-- Canonical memories: empty, one cell at the top, every cell, every cell but the top one. -/
theorem witness_canonical_memory :
    State.reset.mem.wf = true ∧ (Memory.wf [(65535, 0x0001#16)]) = true ∧ (resetFilled 65536).mem.wf = true ∧
      (resetFilled 65535).mem.wf = true :=
  ⟨rfl, by decide, resetFilled_wf _ (by omega), resetFilled_wf _ (by omega)⟩

theorem witness_StStoresPcRelative : State.reset.mem.wf = true := rfl
theorem witness_StiStoresThroughPointer : (resetFilled 65535).mem.wf = true := resetFilled_wf _ (by omega)
theorem witness_StrStoresBasePlusOffset : (resetFilled 65536).mem.wf = true := resetFilled_wf _ (by omega)

/-- A TRAP of a service vector and of an unknown one have next states. -/
theorem witness_TrapLinksAndDispatches :
    exec (.trap 0#4 0x21#8) State.reset = exec (.out 0#4) State.reset ∧
    exec (.out 0#4) State.reset = .next (State.reset.trapEnter.consoleOut [0x00#8]) ∧
    exec (.trap 0#4 0x26#8) State.reset = .next (State.reset.trapEnter.stop .unknownTrapVector 0xF026#16) ∧
    isServiceVector 0x26#8 = false ∧ 0xF025#16 &&& 0xF000#16 = 0xF000#16 :=
  ⟨rfl, rfl, rfl, rfl, rfl⟩

/-- The vectors at the ends of the two unknown ranges, and their words. -/
theorem witness_UnknownVectorStops :
    [0x00#8, 0x1F#8, 0x26#8, 0xFF#8].all (fun v => !isServiceVector v) = true ∧
    [0xF000#16, 0xF01F#16, 0xF026#16, 0xFFFF#16].all (fun w =>
      w &&& 0xF000#16 == 0xF000#16 && !isServiceVector (slice w 0 8)) = true := by decide

theorem witness_GetcReadsByteIntoR0 :
    (resetAnswering [.byte 0x00#8]).nextAnswer = .byte 0x00#8 ∧
      (resetAnswering [.byte 0xFF#8]).nextAnswer = .byte 0xFF#8 ∧
      (resetAnswering [.fail]).nextAnswer = .fail ∧ (resetAnswering [.never]).nextAnswer = .never := ⟨rfl, rfl, rfl, rfl⟩

theorem witness_InPromptsReadsAndEchoes :
    (resetAnswering [.byte 0x79#8]).nextAnswer = .byte 0x79#8 ∧
      ({ resetAnswering [.fail, .byte 0x80#8] with inputPos := 1 } : State).nextAnswer = .byte 0x80#8 ∧
      ({ resetAnswering [.byte 0x00#8, .fail] with inputPos := 1 } : State).nextAnswer = .fail ∧
      (resetAnswering [.never]).nextAnswer = .never := ⟨rfl, rfl, rfl, rfl⟩

/-- PUTS and PUTSP: the empty string, and the longest one, 65,535 cells before the one zero cell. -/
theorem witness_PutsWritesStringToZeroCell :
    (∀ j < 0, State.reset.readMem (State.reset.readReg .r0 + BitVec.ofNat 16 j) ≠ 0x0000#16) ∧
    State.reset.readMem (State.reset.readReg .r0 + BitVec.ofNat 16 0) = 0x0000#16 ∧
    (∀ j < 65535, (resetFilled 65535).readMem ((resetFilled 65535).readReg .r0 + BitVec.ofNat 16 j) ≠ 0x0000#16) ∧
    (resetFilled 65535).readMem ((resetFilled 65535).readReg .r0 + BitVec.ofNat 16 65535) = 0x0000#16 :=
  ⟨fun j hj => absurd hj (by omega), rfl, fun j hj => resetFilled_nonzero _ j hj (by omega),
    resetFilled_zero _ _ (by omega) (by omega)⟩

theorem witness_PutspWritesPackedString :
    (∀ j < 1, (start 0xF024#16 0x3000#16 .zero [(.r0, 0xFFFF#16)] [(0xFFFF#16, 0x4100#16)]).readMem
      (0xFFFF#16 + BitVec.ofNat 16 j) ≠ 0x0000#16) ∧
    (start 0xF024#16 0x3000#16 .zero [(.r0, 0xFFFF#16)] [(0xFFFF#16, 0x4100#16)]).readMem
      (0xFFFF#16 + BitVec.ofNat 16 1) = 0x0000#16 := by decide

theorem witness_ConsoleInputFailureStops : (resetAnswering [.fail]).nextAnswer = .fail := rfl

theorem witness_UnfinishedServicesHaveNoNextState :
    (resetAnswering [.never]).nextAnswer = .never ∧ ∀ a, (resetFilled 65536).readMem a ≠ 0x0000#16 :=
  ⟨rfl, resetFilled_all _ (by omega)⟩

/-- An instruction of the flag-writing seven and one outside them, each with its next state; ST is not BR. -/
theorem witness_CondWrittenBySevenReadByBranch :
    (seen (exec (.addImm .r0 .r0 1#5) State.reset) (fun t => t.cond)) = some .positive ∧
    (seen (exec (.st .r0 0#9) State.reset) (fun t => t.cond)) = some .zero ∧ (Instr.st .r0 0#9).row ≠ .br := by decide

theorem witness_OnlyNamedRegistersWritten :
    (Instr.jsr 0#11).WellFormed = true ∧
      exec (.jsr 0#11) State.reset = .next (State.reset.writeReg .r7 0x3000#16) := ⟨rfl, rfl⟩

theorem witness_UnnamedRegistersDoNotMatter :
    (Instr.str .r1 .r2 0#6).WellFormed = true ∧ Reg.r3 ∉ regsRead (.str .r1 .r2 0#6) ∧
      Reg.r3 ∉ regsWritten (.str .r1 .r2 0#6) ∧
      seen (exec (.str .r1 .r2 0#6) State.reset) (fun t => t.pc) = some 0x3000#16 := by decide

/-- A store seen from a cell it does not touch, and an instruction that stores nothing. -/
theorem witness_OnlyStoresWriteMemory :
    State.reset.mem.wf = true ∧ seen (exec (.st .r0 0#9) State.reset) (fun t => t.pc) = some 0x3000#16 ∧
      storeAddress (.st .r0 0#9) State.reset ≠ some 0x2FFF#16 ∧ storeAddress (.lea .r0 0#9) State.reset ≠ some 0x3000#16 ∧
      seen (exec (.lea .r0 0#9) State.reset) (fun t => t.pc) = some 0x3000#16 := by decide

theorem witness_PcWrittenByTransfersOnly :
    (Instr.halt 0#4).row ∉ [Row.br, .jmp, .jsr, .jsrr] ∧
      seen (exec (.halt 0#4) State.reset) (fun t => t.pc) = some 0x3000#16 := by decide

/-- A stop of each kind, and a next state that is no stop. -/
theorem witness_StopsExactlyWhenListed :
    ((Instr.res 0#12).WellFormed = true ∧ seen (exec (.res 0#12) State.reset) (fun t => t.run) = some .halted) ∧
    ((Instr.trap 0#4 0x26#8).WellFormed = true ∧
      seen (exec (.trap 0#4 0x26#8) State.reset) (fun t => t.run) = some .halted) ∧
    seen (exec (.getc 0#4) (resetAnswering [.fail])) (fun t => t.run) = some .halted ∧
    seen (exec (.getc 0#4) (resetAnswering [.byte 0x41#8])) (fun t => t.run) = some .running ∧
    seen (exec (.halt 0#4) State.reset) (fun t => t.run) = some .halted := by decide

theorem witness_ConsoleInputTakenByGetcAndInOnly :
    seen (exec (.inp 0#4) (resetAnswering [.byte 0x41#8])) (fun t => t.inputPos) = some 1 ∧
    seen (exec (.out 0#4) State.reset) (fun t => t.inputPos) = some 0 := by decide

/-- A step that writes to the console and a step, of another row, that does not. -/
theorem witness_OutputOnlyGrows :
    seen (step (State.reset.withFetchWord 16 0xF021)) (fun t => t.out) = some [0x00#8] ∧
    seen (step State.reset) (fun t => t.out) = some [] ∧
    (decode State.reset.fetchWord).row ∉ [Row.out, .puts, .inp, .putsp, .halt] := by decide

theorem witness_ParametersStayFixed : seen (step State.reset) (fun t => t.pc) = some 0x3001#16 := by decide

theorem witness_EveryInstructionCompletesUnlessItWaits :
    (Instr.getc 0#4).WellFormed = true ∧ (Instr.puts 0#4).WellFormed = true ∧
      (Instr.rti 0#12).WellFormed = true := by decide

theorem witness_StepRunsDecodedInstruction :
    State.reset.run = .running ∧ decode (State.reset.readMem State.reset.pc) = .br false false false 0#9 ∧
      (Instr.br false false false 0#9).WellFormed = true := by decide

theorem witness_HaltedHasNoStep :
    halted.run = .halted ∧ seen (step State.reset) (fun t => t.pc) = some 0x3001#16 ∧
      State.reset.run = .running := by decide

/-- A step of HALT and a step of another row. -/
theorem witness_NormalEndOnlyByHalt :
    seen (step (State.reset.withFetchWord 16 0xF025)) (fun t => t.endedNormally) = some true ∧
    seen (step (State.reset.withFetchWord 16 0xD000)) (fun t => t.endedNormally) = some false := by decide

theorem witness_ResetMeetsInvariant : (Memory.wf []) = true := rfl

/-- A state that meets the invariant and has a step, running and one that stops. -/
theorem witness_StepKeepsInvariant :
    State.reset.Inv ∧ seen (step State.reset) (fun t => t.pc) = some 0x3001#16 ∧
      (State.reset.withFetchWord 16 0xF026).Inv ∧
      seen (step (State.reset.withFetchWord 16 0xF026)) (fun t => t.causeInfo) = some 0xF026#16 :=
  ⟨⟨rfl, by decide, rfl⟩, by decide, ⟨by decide, by decide, rfl⟩, by decide⟩

theorem witness_MemoryReadAfterWrite : (Memory.wf [(0, 0x0001#16), (65535, 0xFFFF#16)]) = true := by decide

theorem witness_CanonicalMemoryIsUnique :
    (Memory.wf [(0, 0x0001#16)]) = true ∧ (Memory.write [] 0x0000#16 0x0001#16).wf = true ∧
      ∀ a, Memory.read [(0, 0x0001#16)] a = (Memory.write [] 0x0000#16 0x0001#16).read a :=
  ⟨by decide, by decide, fun _ => rfl⟩

/-- Offsets and a pointer with which ST, STI and STR store to the cell at PC. -/
theorem witness_StoreIsSeenByNextFetch :
    State.reset.mem.wf = true ∧ State.reset.run = .running ∧ State.reset.pcRelative 0#9 = State.reset.pc ∧
    ({ State.reset with mem := [(0x3000, 0x3000#16)] } : State).mem.wf = true ∧
    ({ State.reset with mem := [(0x3000, 0x3000#16)] } : State).indirect 0#9 = 0x3000#16 ∧
    (State.reset.writeReg .r1 0x3000#16).basePlus .r1 0#6 = State.reset.pc := by decide

/-- Images that end exactly at the top, with a cell outside and a word inside, and one that runs past it. -/
theorem witness_LoaderPlacesImage :
    State.reset.mem.wf = true ∧ (0xFFFF#16).toNat + [0x1234#16].length ≤ 65536 ∧ 0 < [0x1234#16].length ∧
    (∀ k < [0x1234#16].length, 0x0000#16 ≠ 0xFFFF#16 + BitVec.ofNat 16 k) ∧
    65536 < (0xFFFF#16).toNat + [0x1234#16, 0x5678#16].length := by decide

theorem witness_JsrThenJmpR7Returns :
    (State.reset.writeReg .r7 0x3000#16).readReg .r7 =
      ((State.reset.writeReg .r7 State.reset.pc).setPc (State.reset.pcRelative 3#11)).readReg .r7 := by decide

theorem witness_StiThenLdiGivesValueBack :
    ({ State.reset with mem := [(0x3006, 0x4000#16)] } : State).mem.wf = true ∧
    ({ State.reset with mem := [(0x3006, 0x4000#16)] } : State).indirect 6#9 ≠
      ({ State.reset with mem := [(0x3006, 0x4000#16)] } : State).pcRelative 6#9 := by decide

end Sys2Proof.Tests
end

section
/-! PROOFS. Sign and zero extension (00_scope.md R6): the laws of `sext16` for every field of at most 16 bits, of which
the four widths of the encoding are instances. -/

namespace Sys2Proof.Machine

/-- A field whose highest bit is clear keeps its value: zeros stand above it. -/
theorem toNat_sext16_of_msb_false {n : Nat} (hn : n ≤ 16) {f : BitVec n} (h : f.msb = false) :
    (sext16 f).toNat = f.toNat := by
  rw [sext16, if_neg (by simp [h]), BitVec.toNat_setWidth_of_le hn]

/-- A field whose highest bit is set is ORed with the mask of the bits above it. -/
theorem sext16_of_msb_true {n : Nat} {f : BitVec n} (h : f.msb = true) :
    sext16 f = BitVec.ofNat 16 f.toNat ||| (0xFFFF#16 &&& ~~~(BitVec.ofNat 16 (2 ^ n - 1))) := by
  rw [sext16, if_pos h, BitVec.ofNat_toNat]

/-- The signed value of the field is kept. -/
theorem toInt_sext16 {n : Nat} (hn : n ≤ 16) (f : BitVec n) : (sext16 f).toInt = f.toInt := by
  rw [sext16_eq_signExtend, BitVec.toInt_signExtend_of_le hn]

/-- No other word has the signed value of the field: a word is determined by its signed value. -/
theorem eq_sext16_of_toInt_eq {n : Nat} (hn : n ≤ 16) {f : BitVec n} {u : Word} (h : u.toInt = f.toInt) :
    u = sext16 f :=
  BitVec.eq_of_toInt_eq (h.trans (toInt_sext16 hn f).symm)

theorem toNat_zext16 (b : Byte) : (zext16 b).toNat = b.toNat :=
  BitVec.toNat_setWidth_of_le (by decide)

/-- Settles O7: each of the four widths is at most 16, and the laws above hold up to 16. -/
theorem signExtensionKeepsSignedValue : Obligations.SignExtensionKeepsSignedValue := by
  refine ⟨fun n hmem f => ?_, toNat_zext16, by decide, by decide⟩
  have hn : n ≤ 16 := (by decide : ∀ n ∈ [5, 6, 9, 11], n ≤ 16) n hmem
  exact ⟨toNat_sext16_of_msb_false hn, sext16_of_msb_true, toInt_sext16 hn f, fun _ => eq_sext16_of_toInt_eq hn⟩

end Sys2Proof.Machine
end

section
/-! PROOFS. The parameters of the run (00_scope.md R3): no instruction and no step changes them. -/

namespace Sys2Proof.Machine

/-- The decoder reads a TRAP word as a service row or as the general row with an unknown vector (30_encoding.md R62). -/
theorem decodeTrap_wellFormed (ign : BitVec 4) (v : BitVec 8) : (decodeTrap ign v).WellFormed = true := by
  unfold decodeTrap
  split
  case h_7 => simp_all [Instr.WellFormed, isServiceVector]
  all_goals rfl

/-- Every term has the meaning of a well-formed one: a general TRAP with a service vector runs that service. -/
theorem exec_eq_exec_wellFormed (i : Instr) (s : State) :
    ∃ j : Instr, j.WellFormed = true ∧ exec i s = exec j s := by
  cases i with
  | trap ign v => exact ⟨decodeTrap ign v, decodeTrap_wellFormed ign v, exec_trap_eq_decodeTrap ign v s⟩
  | _ => exact ⟨_, rfl, rfl⟩

/-- A well-formed instruction keeps the parameters. The services that wait need their inversion, BR and the unknown
vector their condition; every other instruction has one next state, made of updates that name no parameter. -/
theorem exec_paramsSame_of_wellFormed {i : Instr} {s t : State} (hwf : i.WellFormed = true)
    (h : exec i s = .next t) : ParamsSame s t := by
  cases i with
  | getc => obtain ⟨_, _, rfl⟩ | ⟨_, rfl⟩ := exec_getc_next h <;> simp [ParamsSame]
  | inp => obtain ⟨_, _, rfl⟩ | ⟨_, rfl⟩ := exec_inp_next h <;> simp [ParamsSame]
  | puts => obtain ⟨_, _, rfl⟩ := exec_puts_next h; simp [ParamsSame]
  | putsp => obtain ⟨_, _, rfl⟩ := exec_putsp_next h; simp [ParamsSame]
  | trap ign v =>
    have hv : isServiceVector v = false := by simpa [Instr.WellFormed] using hwf
    cases (exec_trap_unknown ign v s hv).symm.trans h
    simp [ParamsSame]
  | br =>
    cases h
    split <;> simp [ParamsSame]
  | _ =>
    cases h
    simp [ParamsSame]

/-- Every instruction keeps the parameters. -/
theorem exec_paramsSame {i : Instr} {s t : State} (h : exec i s = .next t) : ParamsSame s t := by
  obtain ⟨j, hwf, hij⟩ := exec_eq_exec_wellFormed i s
  exact exec_paramsSame_of_wellFormed hwf (hij.symm.trans h)

/-- Settles O47: a step is a fetch, which moves `pc` alone, and an execution, which keeps the parameters. -/
theorem parametersStayFixed : Obligations.ParametersStayFixed := by
  intro s t h
  obtain ⟨_, hexec⟩ := step_next h
  simpa [ParamsSame] using exec_paramsSame hexec

end Sys2Proof.Machine
end

section
/-! PROOFS. What an instruction can do, said once: the kinds of change a well-formed instruction makes (10_state.md R12,
R15, R18, R19, R20). -/

namespace Sys2Proof.Machine

/-- `Effect s i t`: executing `i` in `s` may leave `t`. The seven flag writers and the three stores are one kind each; of
them it says only which register or cell changes. `exec_effect` ties it to `exec`. -/
inductive Effect (s : State) : Instr → State → Prop
  | flagWrite {i : Instr} {d : Reg} (v : Word) : flagDest i = some d → Effect s i (s.setAndFlag d v)
  | store {i : Instr} {a : Word} (v : Word) : storeAddress i s = some a → Effect s i (s.writeMem a v)
  | br (n z p : Bool) (off : BitVec 9) (target : Word) : Effect s (.br n z p off) (s.setPc target)
  | jmp (base : Reg) (hi : BitVec 3) (lo : BitVec 6) (target : Word) : Effect s (.jmp base hi lo) (s.setPc target)
  | jsr (off : BitVec 11) (target : Word) : Effect s (.jsr off) ((s.writeReg .r7 s.pc).setPc target)
  | jsrr (base : Reg) (hi : BitVec 2) (lo : BitVec 6) (target : Word) :
    Effect s (.jsrr base hi lo) ((s.writeReg .r7 s.pc).setPc target)
  | rti (ign : BitVec 12) : Effect s (.rti ign) (s.stop .reservedOpcode (rtiWord ign))
  | res (ign : BitVec 12) : Effect s (.res ign) (s.stop .reservedOpcode (resWord ign))
  | trap (ign : BitVec 4) (v : BitVec 8) : isServiceVector v = false →
    Effect s (.trap ign v) (s.trapEnter.stop .unknownTrapVector (trapWord ign v))
  | getcByte (ign : BitVec 4) (c : Byte) : Effect s (.getc ign) (s.trapEnter.answered.writeReg .r0 (zext16 c))
  | getcFail (ign : BitVec 4) :
    Effect s (.getc ign) (s.trapEnter.answered.stop .consoleInputFailure (trapWord ign 0x20#8))
  | out (ign : BitVec 4) (bs : List Byte) : Effect s (.out ign) (s.trapEnter.consoleOut bs)
  | puts (ign : BitVec 4) (bs : List Byte) : Effect s (.puts ign) (s.trapEnter.consoleOut bs)
  | inpByte (ign : BitVec 4) (c : Byte) :
    Effect s (.inp ign) (((s.trapEnter.consoleOut s.inPrompt).answered.consoleOut [c]).writeReg .r0 (zext16 c))
  | inpFail (ign : BitVec 4) :
    Effect s (.inp ign)
      ((s.trapEnter.consoleOut s.inPrompt).answered.stop .consoleInputFailure (trapWord ign 0x23#8))
  | putsp (ign : BitVec 4) (bs : List Byte) : Effect s (.putsp ign) (s.trapEnter.consoleOut bs)
  | halt (ign : BitVec 4) :
    Effect s (.halt ign) ((s.trapEnter.consoleOut s.haltNotice).stop .haltTrap 0x0000#16)

/-- A well-formed instruction that has a next state made the change of its kind. -/
theorem exec_effect {i : Instr} {s t : State} (hwf : i.WellFormed = true) (h : exec i s = .next t) :
    Effect s i t := by
  cases i with
  | addReg | addImm | andReg | andImm | not | ld | ldi | ldr | lea => cases h; exact .flagWrite _ rfl
  | st | sti | str => cases h; exact .store _ rfl
  | br n z p off =>
    cases h
    split
    · exact .br ..
    · exact .br n z p off s.pc
  | jmp => cases h; exact .jmp ..
  | jsr => cases h; exact .jsr ..
  | jsrr => cases h; exact .jsrr ..
  | rti => cases h; exact .rti _
  | res => cases h; exact .res _
  | trap ign v =>
    have hv : isServiceVector v = false := by simpa [Instr.WellFormed] using hwf
    cases (exec_trap_unknown ign v s hv).symm.trans h
    exact .trap ign v hv
  | getc =>
    obtain ⟨c, _, rfl⟩ | ⟨_, rfl⟩ := exec_getc_next h
    · exact .getcByte _ c
    · exact .getcFail _
  | out => cases h; exact .out ..
  | puts => obtain ⟨bs, _, rfl⟩ := exec_puts_next h; exact .puts _ bs
  | inp =>
    obtain ⟨c, _, rfl⟩ | ⟨_, rfl⟩ := exec_inp_next h
    · exact .inpByte _ c
    · exact .inpFail _
  | putsp => obtain ⟨bs, _, rfl⟩ := exec_putsp_next h; exact .putsp _ bs
  | halt => cases h; exact .halt _

/-- The decoder gives well-formed instructions only. -/
theorem decode_wellFormed (w : Word) : (decode w).WellFormed = true := by
  unfold decode
  split
  case h_2 | h_5 | h_6 => split <;> rfl
  case h_16 => exact decodeTrap_wellFormed _ _
  all_goals rfl

/-- A step that has a next state made the change of the decoded instruction on the state after the fetch. -/
theorem step_effect {s t : State} (h : step s = .next t) : Effect s.afterFetch (decode s.fetchWord) t :=
  exec_effect (decode_wellFormed _) (step_next h).2

/-- A rule about instructions holds of all of them if it holds of the well-formed ones and a general TRAP has it from what
the decoder would read (45_trap.md R120, 30_encoding.md R62). -/
theorem forall_instr_of_wellFormed {P : Instr → Prop} (hwf : ∀ i, i.WellFormed = true → P i)
    (htrap : ∀ ign v, P (decodeTrap ign v) → P (.trap ign v)) (i : Instr) : P i := by
  cases i with
  | trap ign v => exact htrap ign v (hwf _ (decodeTrap_wellFormed ign v))
  | _ => exact hwf _ rfl

/-- What the decoder reads from a TRAP word is of the general row or of a service row. -/
theorem decodeTrap_row_mem (ign : BitVec 4) (v : BitVec 8) : (decodeTrap ign v).row ∈ .trap :: serviceRows := by
  unfold decodeTrap
  split <;> simp [Instr.row, serviceRows]

/-- No trap writes a register with a flag update. -/
theorem flagDest_decodeTrap (ign : BitVec 4) (v : BitVec 8) : flagDest (decodeTrap ign v) = none := by
  unfold decodeTrap
  split <;> rfl

/-- An instruction with a flag update writes that register alone (10_state.md T-R12). -/
theorem regsWritten_of_flagDest {i : Instr} {d : Reg} (h : flagDest i = some d) : regsWritten i = [d] := by
  cases i <;> cases h <;> rfl

/-- GETC and IN neither update flags nor store. -/
theorem flagDest_storeAddress_of_console {i : Instr} (h : i.row = .getc ∨ i.row = .inp) (s : State) :
    flagDest i = none ∧ storeAddress i s = none := by
  cases i with
  | getc | inp => exact ⟨rfl, rfl⟩
  | _ => simp [Instr.row] at h

end Sys2Proof.Machine
end

section
/-! PROOFS. The invariant (10_state.md R20, 60_exceptions.md T-R151): it holds at reset and every step keeps it. -/

namespace Sys2Proof.Machine

/-- Settles O52: by the definition of reset; `State.reset` is reset for the parameters of Machine/Defaults.lean. -/
theorem resetValues : Obligations.ResetValues :=
  ⟨fun _ _ _ _ _ => ⟨rfl, rfl, rfl, rfl, rfl, rfl, rfl, fun _ => rfl, fun _ => rfl, rfl, rfl, rfl⟩,
    _, _, _, _, _, rfl⟩

/-- A state RUNNING with cause NONE and no word recorded meets the invariant if its memory is canonical. -/
theorem State.inv_of_running {s : State} (hmem : s.mem.wf = true) (hrun : s.run = .running) (hcause : s.cause = .none)
    (hinfo : s.causeInfo = 0x0000#16) : s.Inv := by
  simp [State.Inv, hmem, hrun, hcause, hinfo]

/-- Settles O53. -/
theorem resetMeetsInvariant : Obligations.ResetMeetsInvariant :=
  ⟨fun _ _ _ _ _ hmem => State.inv_of_running hmem rfl rfl rfl,
    State.inv_of_running State.reset_mem_wf rfl rfl rfl⟩

/-- The opcode of a word built from its opcode and twelve more bits. -/
theorem slice_opcode_append (op : BitVec 4) (rest : BitVec 12) : slice (op ++ rest) 12 4 = op :=
  BitVec.extractLsb'_append_eq_left

theorem slice_opcode_trapWord (ign : BitVec 4) (v : BitVec 8) : slice (trapWord ign v) 12 4 = 0xF#4 := by
  rw [trapWord, BitVec.append_assoc]
  exact slice_opcode_append 0xF#4 (ign ++ v)

theorem slice_vector_trapWord (ign : BitVec 4) (v : BitVec 8) : slice (trapWord ign v) 0 8 = v :=
  BitVec.extractLsb'_append_eq_right

/-- Where the run flag and the stop reason are unchanged, the invariant asks for canonical memory alone. -/
theorem State.Inv.of_runSame {s t : State} (h : s.Inv) (hmem : t.mem.wf = true) (hrun : RunSame s t) : t.Inv := by
  obtain ⟨_, hcause, hinfo⟩ := h
  obtain ⟨hr, hc, hi⟩ := hrun
  unfold State.Inv
  rw [hr, hc, hi]
  exact ⟨hmem, hcause, hinfo⟩

/-- Every effect keeps the invariant: a store keeps memory canonical, a stop records a word of the instruction that made
it, and nothing else touches memory, run flag or stop reason. -/
theorem Effect.keeps_inv {i : Instr} {s t : State} (h : Effect s i t) (hs : s.Inv) : t.Inv := by
  have hmem : s.mem.wf = true := hs.1
  cases h with
  | store v _ => exact hs.of_runSame (Memory.wf_write _ _ v hmem) ⟨rfl, rfl, rfl⟩
  | rti ign => exact ⟨hmem, by simp, .inl (slice_opcode_append _ ign)⟩
  | res ign => exact ⟨hmem, by simp, .inr (slice_opcode_append _ ign)⟩
  | trap ign v hv => exact ⟨hmem, by simp, slice_opcode_trapWord ign v, (slice_vector_trapWord ign v).symm ▸ hv⟩
  | getcFail ign => exact ⟨hmem, by simp, slice_opcode_trapWord ign _, .inl (slice_vector_trapWord ign _)⟩
  | inpFail ign => exact ⟨hmem, by simp, slice_opcode_trapWord ign _, .inr (slice_vector_trapWord ign _)⟩
  | halt => exact ⟨hmem, by simp, rfl⟩
  | _ => exact hs.of_runSame hmem ⟨rfl, rfl, rfl⟩

/-- The fetch moves `pc` alone. -/
theorem State.Inv.afterFetch {s : State} (h : s.Inv) : s.afterFetch.Inv := h.of_runSame h.1 ⟨rfl, rfl, rfl⟩

/-- Settles O54: the fetch keeps the invariant, and so does the effect of the decoded instruction. -/
theorem stepKeepsInvariant : Obligations.StepKeepsInvariant := fun _ _ hs h =>
  (step_effect h).keeps_inv hs.afterFetch

end Sys2Proof.Machine
end

section
/-! PROOFS. The condition flags (10_state.md R16 to R18). -/

namespace Sys2Proof.Machine

theorem condOf_eq_positive (v : Word) : condOf v = .positive ↔ 1 ≤ v.toNat ∧ v.toNat ≤ 0x7FFF := by
  have hzero : condOf v ≠ .zero ↔ 1 ≤ v.toNat := by
    rw [Ne, condOf_eq_zero, ← BitVec.toNat_inj, Nat.one_le_iff_ne_zero]
    rfl
  have hneg : condOf v ≠ .negative ↔ v.toNat ≤ 0x7FFF := by
    have hmsb : v.getLsbD 15 = decide (0x8000 ≤ v.toNat) := BitVec.msb_eq_decide v
    rw [Ne, condOf_eq_negative, hmsb, decide_eq_true_iff]
    omega
  rw [← hzero, ← hneg]
  cases condOf v <;> decide

/-- Settles O8: each state of COND has its own law. -/
theorem setccClassifiesEveryValue : Obligations.SetccClassifiesEveryValue := fun v =>
  ⟨condOf_eq_zero v, condOf_eq_negative v, condOf_eq_positive v⟩

/-- The mask `ir[11:9]` ANDed with the bit `k` of COND's numeric form is not zero exactly when `ir[9 + k]` is set. -/
theorem mask_and_twoPow_ne_zero (w : Word) {k : Nat} (hk : k < 3) :
    (slice w 9 3).setWidth 16 &&& BitVec.twoPow 16 k ≠ 0x0000#16 ↔ w.getLsbD (9 + k) = true := by
  have hbit : ((slice w 9 3).setWidth 16).getLsbD k = w.getLsbD (9 + k) := by
    simp [slice, hk, (by omega : k < 16)]
  have hpow : BitVec.twoPow 16 k ≠ 0x0000#16 := by interval_cases k <;> decide
  rw [BitVec.and_twoPow, hbit]
  cases w.getLsbD (9 + k) <;> simp [hpow]

/-- Settles O9: each state of COND is one power of two, and its mask bit is the one BR tests. -/
theorem branchTestIsMaskTest : Obligations.BranchTestIsMaskTest := by
  refine ⟨rfl, rfl, rfl, fun w c => ?_⟩
  cases c with
  | positive => exact (mask_and_twoPow_ne_zero w (k := 0) (by decide)).symm
  | zero => exact (mask_and_twoPow_ne_zero w (k := 1) (by decide)).symm
  | negative => exact (mask_and_twoPow_ne_zero w (k := 2) (by decide)).symm

/-- An instruction with a flag update writes its register and sets COND from the value written, nothing else. -/
theorem exec_of_flagDest {i : Instr} {s t : State} {d : Reg} (hd : flagDest i = some d) (h : exec i s = .next t) :
    ∃ v, t = s.setAndFlag d v := by
  cases i with
  | addReg | addImm | andReg | andImm | not | ld | ldi | ldr | lea => cases hd; cases h; exact ⟨_, rfl⟩
  | _ => cases hd

/-- A well-formed instruction without a flag update leaves COND alone. -/
theorem Effect.cond_of_flagDest_none {i : Instr} {s t : State} (h : Effect s i t) (hd : flagDest i = none) :
    t.cond = s.cond := by
  cases h with
  | flagWrite _ hsome => cases hd.symm.trans hsome
  | _ => rfl

/-- An instruction without a flag update leaves COND alone. -/
theorem exec_cond_of_flagDest_none {i : Instr} : flagDest i = none → ∀ {s t : State}, exec i s = .next t →
    t.cond = s.cond := by
  induction i using forall_instr_of_wellFormed with
  | hwf i hwf => exact fun hd _ _ h => (exec_effect hwf h).cond_of_flagDest_none hd
  | htrap ign v ih => exact fun _ s _ h => ih (flagDest_decodeTrap ign v) (exec_trap_eq_decodeTrap ign v s ▸ h)

/-- The state with COND changed to `c`. -/
def State.withCond (s : State) (c : Cond) : State := { s with cond := c }

/-- A well-formed instruction other than BR does not read COND. GETC, IN, PUTS and PUTSP go on as before because what they
wait for does not depend on COND; the next state of every other instruction is read off its equation. -/
theorem exec_withCond_of_wellFormed {i : Instr} {s t : State} (hwf : i.WellFormed = true) (c : Cond)
    (hrow : i.row ≠ .br) (h : exec i s = .next t) :
    ∃ t', exec i (s.withCond c) = .next t' ∧ t'.withCond t.cond = t := by
  cases i with
  | br => exact absurd rfl hrow
  | trap ign v =>
    have hv : isServiceVector v = false := by simpa [Instr.WellFormed] using hwf
    cases (exec_trap_unknown ign v s hv).symm.trans h
    exact ⟨_, exec_trap_unknown ign v _ hv, rfl⟩
  | getc =>
    obtain ⟨b, hb, rfl⟩ | ⟨hb, rfl⟩ := exec_getc_next h
    · exact ⟨_, exec_getc_of_byte (s := s.withCond c) _ hb, rfl⟩
    · exact ⟨_, exec_getc_of_fail (s := s.withCond c) _ hb, rfl⟩
  | inp =>
    obtain ⟨b, hb, rfl⟩ | ⟨hb, rfl⟩ := exec_inp_next h
    · exact ⟨_, exec_inp_of_byte (s := s.withCond c) _ hb, rfl⟩
    · exact ⟨_, exec_inp_of_fail (s := s.withCond c) _ hb, rfl⟩
  | puts =>
    obtain ⟨bs, hbs, rfl⟩ := exec_puts_next h
    exact ⟨_, exec_puts_of_scan (s := s.withCond c) _ hbs, rfl⟩
  | putsp =>
    obtain ⟨bs, hbs, rfl⟩ := exec_putsp_next h
    exact ⟨_, exec_putsp_of_scan (s := s.withCond c) _ hbs, rfl⟩
  | _ => cases h; exact ⟨_, rfl, rfl⟩

/-- No trap reads as a branch. -/
theorem decodeTrap_row_ne_br (ign : BitVec 4) (v : BitVec 8) : (decodeTrap ign v).row ≠ .br := fun h => by
  simpa [h, serviceRows] using decodeTrap_row_mem ign v

/-- Settles O39: the flag writers by `exec_of_flagDest`, every other instruction by its effect; and what a general TRAP
with a service vector does is what that service does. -/
theorem condWrittenBySevenReadByBranch : Obligations.CondWrittenBySevenReadByBranch := by
  constructor
  · intro i s t h
    split
    · next d hd =>
      obtain ⟨v, rfl⟩ := exec_of_flagDest hd h
      simpa using setccClassifiesEveryValue v
    · next hd => exact exec_cond_of_flagDest_none hd h
  · intro i
    induction i using forall_instr_of_wellFormed with
    | hwf i hwf => exact fun _ _ c hrow h => exec_withCond_of_wellFormed hwf c hrow h
    | htrap ign v ih =>
      intro s t c _ h
      rw [exec_trap_eq_decodeTrap] at h ⊢
      exact ih s t c (decodeTrap_row_ne_br ign v) h

end Sys2Proof.Machine
end

section
/-! PROOFS. What each instruction may touch: registers (10_state.md T-R12), PC (R15), console channels (R23, R25). -/

namespace Sys2Proof.Machine

/-- The registers outside an instruction's row of T-R12 keep their values. -/
theorem Effect.regsSameExcept {i : Instr} {s t : State} (h : Effect s i t) : RegsSameExcept (regsWritten i) s t := by
  intro r hr
  cases h with
  | flagWrite v hd =>
    rw [regsWritten_of_flagDest hd, List.mem_singleton] at hr
    rw [State.readReg_setAndFlag, if_neg hr]
  | store => rfl
  | _ => simp_all [regsWritten]

/-- Settles O40. -/
theorem onlyNamedRegistersWritten : Obligations.OnlyNamedRegistersWritten := fun _ _ _ hwf h =>
  (exec_effect hwf h).regsSameExcept

/-- Outside the four transfers of control PC is left alone. -/
theorem Effect.pc_eq {i : Instr} {s t : State} (h : Effect s i t) (hrow : i.row ∉ [Row.br, .jmp, .jsr, .jsrr]) :
    t.pc = s.pc := by
  cases h with
  | br | jmp | jsr | jsrr => simp [Instr.row] at hrow
  | _ => rfl

/-- No trap reads as a transfer of control. -/
theorem decodeTrap_row_not_transfer (ign : BitVec 4) (v : BitVec 8) :
    (decodeTrap ign v).row ∉ [Row.br, .jmp, .jsr, .jsrr] :=
  (by decide : ∀ r ∈ .trap :: serviceRows, r ∉ [Row.br, .jmp, .jsr, .jsrr]) _ (decodeTrap_row_mem ign v)

/-- Settles O43: by the effect of a well-formed instruction; a general TRAP does what the decoder would read. -/
theorem pcWrittenByTransfersOnly : Obligations.PcWrittenByTransfersOnly := by
  intro i
  induction i using forall_instr_of_wellFormed with
  | hwf i hwf => exact fun _ _ hrow h => (exec_effect hwf h).pc_eq hrow
  | htrap ign v ih =>
    intro s t _ h
    rw [exec_trap_eq_decodeTrap] at h
    exact ih s t (decodeTrap_row_not_transfer ign v) h

/-- GETC and IN take one answer of the console, every other instruction none. -/
theorem Effect.inputPos_eq {i : Instr} {s t : State} (h : Effect s i t) :
    t.inputPos = if i.row = .getc ∨ i.row = .inp then s.inputPos + 1 else s.inputPos := by
  cases h with
  | flagWrite _ hd =>
    rw [if_neg fun hc => by simp [(flagDest_storeAddress_of_console hc s).1] at hd]
    rfl
  | store _ ha =>
    rw [if_neg fun hc => by simp [(flagDest_storeAddress_of_console hc s).2] at ha]
    rfl
  | _ => simp [Instr.row]

/-- Settles O45. -/
theorem consoleInputTakenByGetcAndInOnly : Obligations.ConsoleInputTakenByGetcAndInOnly := fun _ _ _ hwf h =>
  (exec_effect hwf h).inputPos_eq

/-- The trace grows by some bytes in OUT, PUTS, IN, PUTSP and HALT, and by none elsewhere. -/
theorem Effect.out_append {i : Instr} {s t : State} (h : Effect s i t) :
    ∃ bs, t.out = s.out ++ bs ∧ (i.row ∉ [Row.out, .puts, .inp, .putsp, .halt] → bs = []) := by
  cases h with
  | out _ bs | puts _ bs | putsp _ bs => exact ⟨bs, rfl, by simp [Instr.row]⟩
  | inpByte _ c => exact ⟨s.inPrompt ++ [c], by simp, by simp [Instr.row]⟩
  | inpFail => exact ⟨s.inPrompt, rfl, by simp [Instr.row]⟩
  | halt => exact ⟨s.haltNotice, rfl, by simp [Instr.row]⟩
  | _ => exact ⟨[], (List.append_nil _).symm, fun _ => rfl⟩

/-- Settles O46: the fetch writes nothing, and the execution appends. -/
theorem outputOnlyGrows : Obligations.OutputOnlyGrows := fun _ _ h => (step_effect h).out_append

end Sys2Proof.Machine
end

section
/-! PROOFS. A register an instruction neither reads nor writes does not matter to it (10_state.md T-R12): the write of such
a register changes no operand and commutes with each update, and so with the instruction. -/

namespace Sys2Proof.Machine

@[simp] theorem State.pcRelative_writeReg {n : Nat} (s : State) (r : Reg) (v : Word) (off : BitVec n) :
    (s.writeReg r v).pcRelative off = s.pcRelative off := rfl

@[simp] theorem State.indirect_writeReg {n : Nat} (s : State) (r : Reg) (v : Word) (off : BitVec n) :
    (s.writeReg r v).indirect off = s.indirect off := rfl

theorem State.basePlus_writeReg_of_ne {n : Nat} {base r : Reg} (h : base ≠ r) (s : State) (v : Word) (off : BitVec n) :
    (s.writeReg r v).basePlus base off = s.basePlus base off := by
  simp [State.basePlus, h]

theorem State.writeReg_comm {d r : Reg} (h : d ≠ r) (s : State) (u v : Word) :
    (s.writeReg r v).writeReg d u = (s.writeReg d u).writeReg r v :=
  congrArg (fun f => { s with regs := f }) (RegFile.write_comm s.regs r d v u h.symm)

theorem State.setAndFlag_writeReg {d r : Reg} (h : d ≠ r) (s : State) (u v : Word) :
    (s.writeReg r v).setAndFlag d u = (s.setAndFlag d u).writeReg r v :=
  congrArg (fun f => { s with regs := f, cond := condOf u }) (RegFile.write_comm s.regs r d v u h.symm)

theorem State.trapEnter_writeReg {r : Reg} (h : .r7 ≠ r) (s : State) (v : Word) :
    (s.writeReg r v).trapEnter = s.trapEnter.writeReg r v := State.writeReg_comm h s s.pc v

theorem State.writeMem_writeReg (s : State) (r : Reg) (v a w : Word) :
    (s.writeReg r v).writeMem a w = (s.writeMem a w).writeReg r v := rfl

theorem State.setPc_writeReg (s : State) (r : Reg) (v target : Word) :
    (s.writeReg r v).setPc target = (s.setPc target).writeReg r v := rfl

/-- A read of the console goes on as before when a register is changed that its continuation does not look at. -/
theorem State.consoleIn_writeReg {s t : State} {ir : Word} {onByte : Byte → State → State} {r : Reg} {v : Word}
    (hon : ∀ c u, onByte c (u.writeReg r v) = (onByte c u).writeReg r v) (h : s.consoleIn ir onByte = .next t) :
    (s.writeReg r v).consoleIn ir onByte = .next (t.writeReg r v) := by
  obtain ⟨c, hc, rfl⟩ | ⟨hfail, rfl⟩ := State.consoleIn_next h
  · rw [← hon c]
    exact State.consoleIn_of_byte (s := s.writeReg r v) hc
  · exact State.consoleIn_of_fail (s := s.writeReg r v) hfail

/-- A string service goes on as before when a register other than R0 is changed. -/
theorem State.writeString_writeReg {s t : State} {bytesOf : Word → List Byte} {r : Reg} (v : Word) (hr : .r0 ≠ r)
    (h : s.writeString bytesOf = .next t) : (s.writeReg r v).writeString bytesOf = .next (t.writeReg r v) := by
  obtain ⟨bs, hbs, rfl⟩ := State.writeString_next h
  exact State.writeString_of_some (s := s.writeReg r v) (by simpa [hr] using hbs)

/-- A well-formed instruction goes on as before when a register is changed that it neither reads nor writes, and leaves
the change in place. A trap's R7 is among those it writes, so that taking it commutes with the change. -/
theorem exec_writeReg {i : Instr} {s t : State} {r : Reg} (v : Word) (hwf : i.WellFormed = true)
    (hread : ∀ q ∈ regsRead i, q ≠ r) (hwritten : ∀ d ∈ regsWritten i, d ≠ r) (h : exec i s = .next t) :
    exec i (s.writeReg r v) = .next (t.writeReg r v) := by
  cases i with
  | addReg | addImm | andReg | andImm | not | ld | ldi | ldr | lea =>
    cases h
    simp_all [regsRead, regsWritten, exec_addReg, exec_addImm, exec_andReg, exec_andImm, exec_not, exec_ld, exec_ldi,
      exec_ldr, exec_lea, State.setAndFlag_writeReg, State.basePlus_writeReg_of_ne]
  | st | sti | str =>
    cases h
    simp_all [regsRead, exec_st, exec_sti, exec_str, State.basePlus_writeReg_of_ne, State.writeMem_writeReg]
  | br =>
    cases h
    rw [apply_ite (State.writeReg · r v)]
    rfl
  | rti | res => cases h; rfl
  | jmp =>
    cases h
    simp_all [regsRead, exec_jmp, State.setPc_writeReg]
  | jsr =>
    cases h
    rw [exec_jsr, State.writeReg_comm (hwritten .r7 List.mem_cons_self)]
    rfl
  | jsrr base =>
    cases h
    have hbase : base ≠ r := hread base List.mem_cons_self
    rw [exec_jsrr, State.writeReg_comm (hwritten .r7 List.mem_cons_self), State.readReg_writeReg, if_neg hbase]
    rfl
  | trap ign vect =>
    have hvect : isServiceVector vect = false := by simpa [Instr.WellFormed] using hwf
    cases (exec_trap_unknown ign vect s hvect).symm.trans h
    rw [exec_trap_unknown ign vect _ hvect, State.trapEnter_writeReg (hwritten .r7 List.mem_cons_self)]
    rfl
  | getc =>
    have h0 : .r0 ≠ r := hwritten .r0 (List.mem_cons_of_mem _ List.mem_cons_self)
    rw [exec_getc] at h ⊢
    rw [State.trapEnter_writeReg (hwritten .r7 List.mem_cons_self)]
    exact State.consoleIn_writeReg (fun c u => State.writeReg_comm h0 u (zext16 c) v) h
  | inp =>
    have h0 : .r0 ≠ r := hwritten .r0 (List.mem_cons_of_mem _ List.mem_cons_self)
    rw [exec_inp] at h ⊢
    rw [State.trapEnter_writeReg (hwritten .r7 List.mem_cons_self)]
    exact State.consoleIn_writeReg (fun c u => State.writeReg_comm h0 (u.consoleOut [c]) (zext16 c) v) h
  | puts =>
    rw [exec_puts] at h ⊢
    rw [State.trapEnter_writeReg (hwritten .r7 List.mem_cons_self)]
    exact State.writeString_writeReg v (hread .r0 List.mem_cons_self) h
  | putsp =>
    rw [exec_putsp] at h ⊢
    rw [State.trapEnter_writeReg (hwritten .r7 List.mem_cons_self)]
    exact State.writeString_writeReg v (hread .r0 List.mem_cons_self) h
  | out =>
    cases h
    have h0 : .r0 ≠ r := hread .r0 List.mem_cons_self
    rw [exec_out, State.trapEnter_writeReg (hwritten .r7 List.mem_cons_self), State.readReg_writeReg, if_neg h0]
    rfl
  | halt =>
    cases h
    rw [exec_halt, State.trapEnter_writeReg (hwritten .r7 List.mem_cons_self)]
    rfl

/-- Settles O41: a register outside a list differs from each register in it. -/
theorem unnamedRegistersDoNotMatter : Obligations.UnnamedRegistersDoNotMatter :=
  fun _ _ _ _ v hwf hread hwritten h =>
    exec_writeReg v hwf (fun _ hq => ne_of_mem_of_not_mem hq hread) (fun _ hd => ne_of_mem_of_not_mem hd hwritten) h

end Sys2Proof.Machine
end

section
/-! PROOFS. Effective addresses (20_memory.md R33): a word plus a sign-extended field is the signed sum modulo 65,536. -/

namespace Sys2Proof.Machine

/-- The sum of an unsigned word and a signed field of at most 16 bits, reduced modulo 65,536. -/
theorem toNat_add_sext16 {n : Nat} (hn : n ≤ 16) (w : Word) (f : BitVec n) :
    ((w + sext16 f).toNat : Int) = ((w.toNat : Int) + f.toInt) % 65536 := by
  rw [← toInt_sext16 hn f, BitVec.toNat_add, BitVec.toInt_eq_toNat_cond]
  omega

/-- Settles O10: the three offsets are fields of at most 16 bits, added to PC or to the base register. -/
theorem effectiveAddressesWrap : Obligations.EffectiveAddressesWrap :=
  ⟨fun s => toNat_add_sext16 (by decide) s.pc, fun s => toNat_add_sext16 (by decide) s.pc,
    fun s base => toNat_add_sext16 (by decide) (s.readReg base)⟩

end Sys2Proof.Machine
end

section
/-! PROOFS. Memory as the instructions see it (20_memory.md R31, R32, R36, R42): reads after writes, the uniqueness of the
canonical form, which instructions store, and the fetch of a stored word. -/

namespace Sys2Proof.Machine

/-- Settles O55: `Memory.readAt_writeAt`, where addresses are words. -/
theorem memoryReadAfterWrite : Obligations.MemoryReadAfterWrite := fun m a v b hm => by
  simpa [Memory.read, Memory.write, BitVec.toNat_inj] using Memory.readAt_writeAt a.toNat b.toNat v 0 m hm

theorem State.readMem_writeMem {s : State} (hs : s.mem.wf = true) (a v b : Word) :
    (s.writeMem a v).readMem b = if b = a then v else s.readMem b :=
  memoryReadAfterWrite s.mem a v b hs

theorem Memory.readAt_cons_self (k : Nat) (v : Word) (m : Memory) : Memory.readAt ((k, v) :: m) k = v := by
  simp [Memory.readAt]

theorem Memory.readAt_cons_of_lt {k a : Nat} (h : k < a) (v : Word) (m : Memory) :
    Memory.readAt ((k, v) :: m) a = m.readAt a := by
  simp [Memory.readAt, h]

/-- A canonical memory is so from its first entry up. -/
theorem Memory.wfFrom_head {lo k : Nat} {v : Word} {m : Memory} (h : Memory.wfFrom lo ((k, v) :: m) = true) :
    Memory.wfFrom k ((k, v) :: m) = true :=
  (Memory.wfFrom_cons k k v m).2 ⟨le_refl k, ((Memory.wfFrom_cons lo k v m).1 h).2⟩

/-- A memory canonical from `lo'` up that reads like a canonical one at the address of its first entry reaches down to that
entry, whose content no unlisted cell has. -/
theorem Memory.le_head_of_readAt_eq {lo lo' k : Nat} {v : Word} {m n : Memory}
    (hm : Memory.wfFrom lo ((k, v) :: m) = true) (hn : Memory.wfFrom lo' n = true)
    (h : ∀ a < 65536, Memory.readAt ((k, v) :: m) a = n.readAt a) : lo' ≤ k := by
  obtain ⟨_, hk, hv, _⟩ := (Memory.wfFrom_cons lo k v m).1 hm
  by_contra hlt
  refine hv ?_
  rw [← Memory.readAt_cons_self k v m, h k hk, Memory.readAt_of_lt (not_le.1 hlt) n hn]

/-- Canonical memories that read alike have the same first entry, since neither can begin below the other, and tails that
read alike. -/
theorem Memory.eq_of_readAt_eq : ∀ {lo : Nat} {m n : Memory}, Memory.wfFrom lo m = true → Memory.wfFrom lo n = true →
    (∀ a < 65536, m.readAt a = n.readAt a) → m = n
  | _, [], [], _, _, _ => rfl
  | _, [], (k, _) :: _, _, hn, h =>
    absurd (Memory.le_head_of_readAt_eq (lo' := k + 1) hn rfl fun a ha => (h a ha).symm) (by omega)
  | _, (k, _) :: _, [], hm, _, h => absurd (Memory.le_head_of_readAt_eq (lo' := k + 1) hm rfl h) (by omega)
  | lo, (k, v) :: m, (l, w) :: n, hm, hn, h => by
    obtain ⟨_, hk, _, hm'⟩ := (Memory.wfFrom_cons lo k v m).1 hm
    obtain ⟨_, _, _, hn'⟩ := (Memory.wfFrom_cons lo l w n).1 hn
    have hlk : l ≤ k := Memory.le_head_of_readAt_eq hm (Memory.wfFrom_head hn) h
    have hkl : k ≤ l := Memory.le_head_of_readAt_eq hn (Memory.wfFrom_head hm) fun a ha => (h a ha).symm
    obtain rfl : k = l := le_antisymm hkl hlk
    obtain rfl : v = w := by simpa only [Memory.readAt_cons_self] using h k hk
    have htail : ∀ a < 65536, Memory.readAt m a = Memory.readAt n a := by
      intro a ha
      rcases Nat.lt_or_ge k a with hka | hak
      · simpa only [Memory.readAt_cons_of_lt hka] using h a ha
      · rw [Memory.readAt_of_lt (Nat.lt_succ_of_le hak) m hm', Memory.readAt_of_lt (Nat.lt_succ_of_le hak) n hn']
    rw [Memory.eq_of_readAt_eq hm' hn' htail]

/-- Settles O56: every address number below 65,536 is that of a word. -/
theorem canonicalMemoryIsUnique : Obligations.CanonicalMemoryIsUnique := by
  intro m n hm hn h
  refine Memory.eq_of_readAt_eq hm hn fun a ha => ?_
  simpa [Memory.read, Nat.mod_eq_of_lt ha] using h (BitVec.ofNat 16 a)

/-- Memory changes in the cell of the store address alone. -/
theorem Effect.readMem_eq {i : Instr} {s t : State} {a : Word} (h : Effect s i t) (hs : s.mem.wf = true)
    (ha : storeAddress i s ≠ some a) : t.readMem a = s.readMem a := by
  cases h with
  | store v hb => rw [State.readMem_writeMem hs, if_neg fun hab => ha (by rw [hab, hb])]
  | _ => rfl

/-- No trap stores. -/
theorem storeAddress_decodeTrap (ign : BitVec 4) (v : BitVec 8) (s : State) :
    storeAddress (decodeTrap ign v) s = none := by
  unfold decodeTrap
  split <;> rfl

/-- Settles O42: by the effect of a well-formed instruction; a general TRAP does what the decoder would read. -/
theorem onlyStoresWriteMemory : Obligations.OnlyStoresWriteMemory := by
  intro i
  induction i using forall_instr_of_wellFormed with
  | hwf i hwf => exact fun _ _ _ hs h ha => (exec_effect hwf h).readMem_eq hs ha
  | htrap ign v ih =>
    intro s t a hs h _
    rw [exec_trap_eq_decodeTrap] at h
    exact ih s t a hs h (by simp [storeAddress_decodeTrap])

/-- While RUNNING, the step after a write to the cell at PC runs the instruction of the word written. -/
theorem step_writeMem_pc {s : State} {a : Word} (hs : s.mem.wf = true) (hrun : s.run = .running) (ha : a = s.pc)
    (v : Word) : step (s.writeMem a v) = exec (decode v) (s.writeMem a v).afterFetch := by
  have hfetch : (s.writeMem a v).fetchWord = v := (State.readMem_writeMem hs a v s.pc).trans (if_pos ha.symm)
  rw [step_running (s := s.writeMem a v) hrun, hfetch]

/-- Settles O57: each of the three stores is a write to its address, here PC. -/
theorem storeIsSeenByNextFetch : Obligations.StoreIsSeenByNextFetch :=
  ⟨fun sr off s hs hrun ha => ⟨_, exec_st sr off s, step_writeMem_pc hs hrun ha _⟩,
    fun sr off s hs hrun ha => ⟨_, exec_sti sr off s, step_writeMem_pc hs hrun ha _⟩,
    fun sr base off s hs hrun ha => ⟨_, exec_str sr base off s, step_writeMem_pc hs hrun ha _⟩⟩

end Sys2Proof.Machine
end

section
/-! PROOFS. Decoder and encoder (30_encoding.md R51 to R62): the round trips, the rows a word matches, and the rule that
a word matching a row is read by that row's fields (`decode_of_mask`). -/

namespace Sys2Proof

open Sys2Proof.Machine

/-- Neighbouring slices of a word join to one slice. -/
theorem slice_append_slice (w : Word) {hi lo m n : Nat} (h : hi = lo + n) :
    slice w hi m ++ slice w lo n = slice w lo (m + n) :=
  BitVec.extractLsb'_append_extractLsb'_eq_extractLsb' h

theorem slice_zero_sixteen (w : Word) : slice w 0 16 = w := BitVec.extractLsb'_eq_self

theorem slice_one (w : Word) (k : Nat) : slice w k 1 = BitVec.ofBool (w.getLsbD k) := by
  refine BitVec.eq_of_getLsbD_eq fun j hj => ?_
  obtain rfl : j = 0 := by omega
  simp [slice]

theorem slice_one_of_set {w : Word} {k : Nat} (h : w.getLsbD k = true) : slice w k 1 = 1#1 := by
  rw [slice_one, h]
  rfl

theorem slice_one_of_clear {w : Word} {k : Nat} (h : ¬w.getLsbD k = true) : slice w k 1 = 0#1 := by
  rw [slice_one, Bool.eq_false_of_not_eq_true h]
  rfl

@[simp] theorem regField_toBits (w : Word) (lo : Nat) : (regField w lo).toBits = slice w lo 3 := Reg.toBits_ofBits _

theorem encode_decodeTrap (ign : BitVec 4) (v : BitVec 8) : encode (decodeTrap ign v) = trapWord ign v := by
  unfold decodeTrap
  split <;> rfl

/-- The decoder loses no bit of a word: each arm's fields, joined again in the encoder's order, are the whole word. -/
theorem encode_decode (w : Word) : encode (decode w) = w := by
  unfold decode
  split
  case h_2 hop | h_5 hop | h_6 hop =>
    split
    · next hset =>
      simp only [encode, regField_toBits, ← hop, ← slice_one_of_set hset, slice_append_slice]
      exact slice_zero_sixteen w
    · next hclear =>
      simp only [encode, regField_toBits, ← hop, ← slice_one_of_clear hclear, slice_append_slice]
      exact slice_zero_sixteen w
  case h_16 =>
    have hop : slice w 12 4 = 0xF#4 := by
      generalize slice w 12 4 = op at *
      revert op
      decide
    simp only [encode_decodeTrap, trapWord, ← hop, slice_append_slice]
    exact slice_zero_sixteen w
  all_goals
    next hop =>
    simp only [encode, rtiWord, resWord, regField_toBits, ← slice_one, ← hop, slice_append_slice]
    exact slice_zero_sixteen w

/-- Settles O2: the decoder gives well-formed terms only and loses no bit. -/
theorem encodeOfDecodeIsIdentity : Obligations.EncodeOfDecodeIsIdentity := fun w =>
  ⟨decode_wellFormed w, encode_decode w⟩

/-- The word of an instruction matches the instruction's row. -/
theorem encode_matches_row (i : Instr) : encode i &&& i.row.mask = i.row.pattern := by
  cases i with
  | br => exact Laws.EncodingRow.br ..
  | addReg => exact Laws.EncodingRow.addReg ..
  | addImm => exact Laws.EncodingRow.addImm ..
  | ld => exact Laws.EncodingRow.ld ..
  | st => exact Laws.EncodingRow.st ..
  | jsrr => exact Laws.EncodingRow.jsrr ..
  | jsr => exact Laws.EncodingRow.jsr ..
  | andReg => exact Laws.EncodingRow.andReg ..
  | andImm => exact Laws.EncodingRow.andImm ..
  | ldr => exact Laws.EncodingRow.ldr ..
  | str => exact Laws.EncodingRow.str ..
  | rti => exact Laws.EncodingRow.rti ..
  | not => exact Laws.EncodingRow.not ..
  | ldi => exact Laws.EncodingRow.ldi ..
  | sti => exact Laws.EncodingRow.sti ..
  | jmp => exact Laws.EncodingRow.jmp ..
  | res => exact Laws.EncodingRow.res ..
  | lea => exact Laws.EncodingRow.lea ..
  | trap => exact Laws.EncodingRow.trap ..
  | getc => exact Laws.EncodingRow.getc ..
  | out => exact Laws.EncodingRow.out ..
  | puts => exact Laws.EncodingRow.puts ..
  | inp => exact Laws.EncodingRow.inp ..
  | putsp => exact Laws.EncodingRow.putsp ..
  | halt => exact Laws.EncodingRow.halt ..

/-- The instruction of row `r` with the fields of the word `w` (30_encoding.md T-R53). -/
def Row.read (r : Row) (w : Word) : Instr :=
  match r with
  | .br => .br (w.getLsbD 11) (w.getLsbD 10) (w.getLsbD 9) (slice w 0 9)
  | .addReg => .addReg (regField w 9) (regField w 6) (regField w 0) (slice w 3 2)
  | .addImm => .addImm (regField w 9) (regField w 6) (slice w 0 5)
  | .ld => .ld (regField w 9) (slice w 0 9)
  | .st => .st (regField w 9) (slice w 0 9)
  | .jsrr => .jsrr (regField w 6) (slice w 9 2) (slice w 0 6)
  | .jsr => .jsr (slice w 0 11)
  | .andReg => .andReg (regField w 9) (regField w 6) (regField w 0) (slice w 3 2)
  | .andImm => .andImm (regField w 9) (regField w 6) (slice w 0 5)
  | .ldr => .ldr (regField w 9) (regField w 6) (slice w 0 6)
  | .str => .str (regField w 9) (regField w 6) (slice w 0 6)
  | .rti => .rti (slice w 0 12)
  | .not => .not (regField w 9) (regField w 6) (slice w 0 6)
  | .ldi => .ldi (regField w 9) (slice w 0 9)
  | .sti => .sti (regField w 9) (slice w 0 9)
  | .jmp => .jmp (regField w 6) (slice w 9 3) (slice w 0 6)
  | .res => .res (slice w 0 12)
  | .lea => .lea (regField w 9) (slice w 0 9)
  | .trap => .trap (slice w 8 4) (slice w 0 8)
  | .getc => .getc (slice w 8 4)
  | .out => .out (slice w 8 4)
  | .puts => .puts (slice w 8 4)
  | .inp => .inp (slice w 8 4)
  | .putsp => .putsp (slice w 8 4)
  | .halt => .halt (slice w 8 4)

@[simp] theorem Row.row_read (r : Row) (w : Word) : (r.read w).row = r := by cases r <;> rfl

/-- The decoder reads each word by the fields of one row. -/
theorem decode_eq_read (w : Word) : decode w = (decode w).row.read w := by
  unfold decode
  split
  case h_2 | h_5 | h_6 => split <;> rfl
  case h_16 => unfold decodeTrap; split <;> rfl
  all_goals rfl

/-- The extract of the whole width from bit 0, with the start in any spelling. -/
theorem extractLsb'_eq_self_of_start {n start : Nat} (h : start = 0) (x : BitVec n) : x.extractLsb' start n = x := by
  rw [h, BitVec.extractLsb'_eq_self]

/-- A row's fields, read from the word of an instruction of the row, are the instruction's: each slice falls on the part
the encoder put there. -/
theorem Row.read_encode (i : Instr) : i.row.read (encode i) = i := by
  cases i with
  | br =>
    simp (disch := decide) only [Instr.row, Row.read, encode, slice, BitVec.getLsbD_append,
      BitVec.extractLsb'_append_eq_of_add_le, extractLsb'_eq_self_of_start]
    simp
  | _ =>
    simp (disch := decide) only [Instr.row, Row.read, encode, trapWord, rtiWord, resWord, regField, slice,
      BitVec.extractLsb'_append_eq_of_le, BitVec.extractLsb'_append_eq_of_add_le, extractLsb'_eq_self_of_start,
      Reg.ofBits_toBits]

/-- A word matches the row of the instruction it decodes to. -/
theorem and_mask_decode_row (w : Word) : w &&& (decode w).row.mask = (decode w).row.pattern := by
  simpa only [encode_decode] using encode_matches_row (decode w)

/-- Every row of the table is one of the nineteen encodings or a trap service. -/
theorem Row.mem_rows (r : Row) : r ∈ encodingRows ++ serviceRows := by cases r <;> decide

/-- Two rows that share a word agree on the bits both fix. -/
theorem pattern_and_mask_comm {r q : Row} {w : Word} (hr : w &&& r.mask = r.pattern) (hq : w &&& q.mask = q.pattern) :
    r.pattern &&& q.mask = q.pattern &&& r.mask := by
  rw [← hr, ← hq, BitVec.and_assoc, BitVec.and_assoc, BitVec.and_comm r.mask]

/-- Rows that agree on the bits both fix are the same, or one is a trap service and the other the general TRAP. -/
theorem eq_or_service_of_pattern_comm : ∀ r ∈ encodingRows ++ serviceRows, ∀ q ∈ encodingRows ++ serviceRows,
    r.pattern &&& q.mask = q.pattern &&& r.mask →
      r = q ∨ r ∈ serviceRows ∧ q = .trap ∨ q ∈ serviceRows ∧ r = .trap := by
  decide

/-- A word of a trap service has a service vector, so that read as the general TRAP it is not well formed (log 12). -/
theorem wellFormed_read_trap_of_service {r : Row} {w : Word} (hr : r ∈ serviceRows) (h : w &&& r.mask = r.pattern) :
    (Row.trap.read w).WellFormed = false := by
  have hmask : ∀ k < 8, r.mask.getLsbD (0 + k) = true :=
    (by decide : ∀ r ∈ serviceRows, ∀ k < 8, r.mask.getLsbD (0 + k) = true) r hr
  have hvect : slice w 0 8 = slice r.pattern 0 8 := slice_congr fun k hk => getLsbD_of_mask h (0 + k) (hmask k hk)
  have hservice : isServiceVector (slice r.pattern 0 8) = true :=
    (by decide : ∀ r ∈ serviceRows, isServiceVector (slice r.pattern 0 8) = true) r hr
  simp [Row.read, Instr.WellFormed, hvect, hservice]

/-- A word of a trap service is a word of the general TRAP (30_encoding.md R62). -/
theorem and_mask_trap_of_service {r : Row} {w : Word} (hr : r ∈ serviceRows) (h : w &&& r.mask = r.pattern) :
    w &&& Row.trap.mask = Row.trap.pattern := by
  obtain ⟨hmask, hpattern⟩ :=
    (by decide : ∀ r ∈ serviceRows, r.mask &&& Row.trap.mask = Row.trap.mask ∧
      r.pattern &&& Row.trap.mask = Row.trap.pattern) r hr
  rw [← hpattern, ← h, BitVec.and_assoc, hmask]

/-- The rows a word matches: the row of the decoded instruction, and the general TRAP where that is a trap service. -/
theorem and_mask_eq_pattern_iff {r : Row} {w : Word} :
    w &&& r.mask = r.pattern ↔ r = (decode w).row ∨ (decode w).row ∈ serviceRows ∧ r = .trap := by
  have hrow := and_mask_decode_row w
  constructor
  · intro h
    obtain heq | ⟨hr, htrap⟩ | hservice :=
      eq_or_service_of_pattern_comm r r.mem_rows _ (Row.mem_rows _) (pattern_and_mask_comm h hrow)
    · exact .inl heq
    · have hwf := decode_wellFormed w
      rw [decode_eq_read, htrap, wellFormed_read_trap_of_service hr h] at hwf
      cases hwf
    · exact .inr hservice
  · rintro (rfl | ⟨hservice, rfl⟩)
    · exact hrow
    · exact and_mask_trap_of_service hservice hrow

/-- A word that matches a row is read by that row's fields, unless the row is TRAP and a service takes the vector
(30_encoding.md R53, R62). -/
theorem decode_of_mask {r : Row} {w : Word} (h : w &&& r.mask = r.pattern) (hwf : (r.read w).WellFormed = true) :
    decode w = r.read w := by
  obtain rfl | ⟨hservice, rfl⟩ := and_mask_eq_pattern_iff.mp h
  · exact decode_eq_read w
  · rw [wellFormed_read_trap_of_service hservice (and_mask_decode_row w)] at hwf
    cases hwf

/-- Settles O1: the word matches the instruction's row, and the row's fields are the instruction's. -/
theorem decodeOfEncodeIsIdentity : Obligations.DecodeOfEncodeIsIdentity := fun i hwf => by
  have hread := Row.read_encode i
  rw [decode_of_mask (encode_matches_row i) (hread.symm ▸ hwf), hread]

theorem Row.matchesWord_iff {r : Row} {w : Word} :
    r.matchesWord w = true ↔ r = (decode w).row ∨ (decode w).row ∈ serviceRows ∧ r = .trap :=
  beq_iff_eq.trans and_mask_eq_pattern_iff

/-- No trap service is among the nineteen encodings. -/
theorem not_mem_serviceRows {r : Row} (h : r ∈ encodingRows) : r ∉ serviceRows :=
  (by decide : ∀ r ∈ encodingRows, r ∉ serviceRows) r h

/-- Settles O3: the row is that of the decoded instruction, or TRAP where that is a trap service. -/
theorem nineteenRowsPartitionWords : Obligations.NineteenRowsPartitionWords := fun w => by
  simp only [Row.matchesWord_iff]
  obtain hrow | hrow := List.mem_append.mp (decode w).row.mem_rows
  · refine ⟨_, hrow, .inl rfl, fun r' _ h => ?_⟩
    exact h.resolve_right fun hservice => not_mem_serviceRows hrow hservice.1
  · refine ⟨.trap, by decide, .inr ⟨hrow, rfl⟩, fun r' hr' h => ?_⟩
    obtain rfl | ⟨_, htrap⟩ := h
    · exact absurd hrow (not_mem_serviceRows hr')
    · exact htrap

/-- Settles O4: of the rows a word matches, TRAP has a lower priority than each trap service. -/
theorem tablePriorityAgreesWithDecoder : Obligations.TablePriorityAgreesWithDecoder := fun w => by
  have hmatches : (fun r : Row => r.matchesWord w) =
      fun r => decide (r = (decode w).row ∨ (decode w).row ∈ serviceRows ∧ r = .trap) :=
    funext fun r => Bool.eq_iff_iff.mpr (Row.matchesWord_iff.trans decide_eq_true_iff.symm)
  rw [rowOfWord, hmatches]
  cases (decode w).row <;> decide

/-- Settles O5: vectors of 95_test_vectors.md, each computed. -/
theorem sampleWordsDecode : Obligations.SampleWordsDecode := by
  unfold Obligations.SampleWordsDecode
  decide

end Sys2Proof
end

section
/-! PROOFS. Ignored bits (30_encoding.md R56): an instruction does what it does with its ignored bits cleared, but for
the word a fatal stop records (10_state.md R20). -/

namespace Sys2Proof

open Sys2Proof.Machine

/-- The instruction with every ignored bit 0. -/
def Instr.clearIgnored : Instr → Instr
  | .addReg dr sr1 sr2 _ => .addReg dr sr1 sr2 0#2
  | .jsrr base _ _ => .jsrr base 0#2 0#6
  | .andReg dr sr1 sr2 _ => .andReg dr sr1 sr2 0#2
  | .rti _ => .rti 0#12
  | .not dr sr _ => .not dr sr 0#6
  | .jmp base _ _ => .jmp base 0#3 0#6
  | .res _ => .res 0#12
  | .trap _ v => .trap 0#4 v
  | .getc _ => .getc 0#4
  | .out _ => .out 0#4
  | .puts _ => .puts 0#4
  | .inp _ => .inp 0#4
  | .putsp _ => .putsp 0#4
  | .halt _ => .halt 0#4
  | i => i

@[simp] theorem Instr.wellFormed_clearIgnored (i : Instr) : i.clearIgnored.WellFormed = i.WellFormed := by
  cases i <;> rfl

theorem slice_and_of_ones {m : Word} {lo n : Nat} (h : slice m lo n = BitVec.allOnes n) (w : Word) :
    slice (w &&& m) lo n = slice w lo n := by
  simp only [slice] at h ⊢
  rw [BitVec.extractLsb'_and, h, BitVec.and_allOnes]

theorem slice_and_of_zeros {m : Word} {lo n : Nat} (h : slice m lo n = 0#n) (w : Word) :
    slice (w &&& m) lo n = 0#n := by
  simp only [slice] at h ⊢
  rw [BitVec.extractLsb'_and, h, BitVec.and_zero]

theorem regField_and_of_ones {m : Word} {lo : Nat} (h : slice m lo 3 = BitVec.allOnes 3) (w : Word) :
    regField (w &&& m) lo = regField w lo := by
  rw [regField, slice_and_of_ones h, regField]

/-- The table's ignored bits of a row are those of its instructions (30_encoding.md R56): clearing them in the word
clears them in the instruction and leaves every field. -/
theorem Row.clearIgnored_read (r : Row) (w : Word) : (r.read w).clearIgnored = r.read (w &&& ~~~r.ignored) := by
  cases r with
  | br =>
    rw [show w &&& ~~~Row.br.ignored = w from BitVec.and_allOnes]
    rfl
  | _ =>
    simp (disch := decide) only [Row.read, Instr.clearIgnored, slice_and_of_ones, slice_and_of_zeros,
      regField_and_of_ones]

/-- A row fixes none of the bits it ignores. -/
theorem Row.not_ignored_and_mask (r : Row) : ~~~r.ignored &&& r.mask = r.mask := by cases r <;> decide

/-- Words that agree outside the bits that the row of one ignores are read by that row, and are the same instruction but
for its ignored bits. -/
theorem decode_of_agree {w v : Word} (h : w &&& ~~~(decode w).row.ignored = v &&& ~~~(decode w).row.ignored) :
    (decode v).row = (decode w).row ∧ (decode v).clearIgnored = (decode w).clearIgnored := by
  have hread := decode_eq_read w
  have hwf := decode_wellFormed w
  have hmask := and_mask_decode_row w
  generalize (decode w).row = r at h hread hmask
  have hclear : (r.read v).clearIgnored = (r.read w).clearIgnored := by
    rw [Row.clearIgnored_read, Row.clearIgnored_read, h]
  have hv : v &&& r.mask = r.pattern := by
    rw [← hmask, ← r.not_ignored_and_mask, ← BitVec.and_assoc, ← BitVec.and_assoc, h]
  have hvwf : (r.read v).WellFormed = true := by
    rw [← Instr.wellFormed_clearIgnored, hclear, Instr.wellFormed_clearIgnored, ← hread, hwf]
  rw [decode_of_mask hv hvwf, hread]
  exact ⟨Row.row_read r v, hclear⟩

/-- Two words whose difference lies outside a mask agree under it. -/
theorem and_eq_and_of_xor_and_eq_zero {w v m : Word} (h : (w ^^^ v) &&& m = 0x0000#16) : w &&& m = v &&& m := by
  rw [← BitVec.xor_eq_zero_iff, ← h]
  ext k hk
  simp [Bool.and_xor_distrib_right]

end Sys2Proof

namespace Sys2Proof.Machine

/-- A result without the recorded instruction word. -/
def withoutInfo : Result → Result
  | .next t => .next { t with causeInfo := 0x0000#16 }
  | .fault f => .fault f
  | .refused p => .refused p

theorem sameButInfo_iff {p q : Result} : SameButInfo p q ↔ withoutInfo p = withoutInfo q := by
  cases p <;> cases q <;> simp [SameButInfo, withoutInfo]

/-- A console read that does not fail records no word. -/
theorem State.consoleIn_congr_word {s : State} (h : s.nextAnswer ≠ .fail) (ir ir' : Word)
    (onByte : Byte → State → State) : s.consoleIn ir onByte = s.consoleIn ir' onByte := by
  cases hanswer : s.nextAnswer with
  | fail => exact absurd hanswer h
  | byte c => rw [State.consoleIn_of_byte hanswer, State.consoleIn_of_byte hanswer]
  | never => rw [State.consoleIn_of_never hanswer, State.consoleIn_of_never hanswer]

/-- A console read that fails records the word and uses it for nothing else. -/
theorem State.withoutInfo_consoleIn (s : State) (ir ir' : Word) (onByte : Byte → State → State) :
    withoutInfo (s.consoleIn ir onByte) = withoutInfo (s.consoleIn ir' onByte) := by
  by_cases h : s.nextAnswer = .fail
  · rw [State.consoleIn_of_fail h, State.consoleIn_of_fail h]
    rfl
  · rw [State.consoleIn_congr_word h ir ir']

/-- Ignored bits reach the recorded word alone. -/
theorem withoutInfo_exec_clearIgnored {i : Instr} (hwf : i.WellFormed = true) (s : State) :
    withoutInfo (exec i.clearIgnored s) = withoutInfo (exec i s) := by
  cases i with
  | trap ign v =>
    have hv : isServiceVector v = false := by simpa [Instr.WellFormed] using hwf
    rw [Instr.clearIgnored, exec_trap_unknown _ v s hv, exec_trap_unknown _ v s hv]
    rfl
  | getc =>
    rw [Instr.clearIgnored, exec_getc, exec_getc]
    exact State.withoutInfo_consoleIn ..
  | inp =>
    rw [Instr.clearIgnored, exec_inp, exec_inp]
    exact State.withoutInfo_consoleIn ..
  | _ => rfl

/-- Ignored bits do not decide whether an instruction stops. -/
theorem stopOf_clearIgnored_eq_none (i : Instr) (s : State) : stopOf i.clearIgnored s = none ↔ stopOf i s = none := by
  cases i <;> simp [Instr.clearIgnored, stopOf]

/-- Where no word is recorded, ignored bits have no effect at all. -/
theorem exec_clearIgnored {i : Instr} {s : State} (h : stopOf i s = none ∨ i.row = .halt) :
    exec i.clearIgnored s = exec i s := by
  cases i with
  | rti | res | trap => simp [stopOf, Instr.row] at h
  | getc =>
    have hanswer : s.nextAnswer ≠ .fail := by simpa [stopOf, Instr.row] using h
    rw [Instr.clearIgnored, exec_getc, exec_getc]
    exact State.consoleIn_congr_word (s := s.trapEnter) hanswer ..
  | inp =>
    have hanswer : s.nextAnswer ≠ .fail := by simpa [stopOf, Instr.row] using h
    rw [Instr.clearIgnored, exec_inp, exec_inp]
    exact State.consoleIn_congr_word (s := s.trapEnter.consoleOut s.inPrompt) hanswer ..
  | _ => rfl

/-- Settles O6: both words decode to the same instruction but for its ignored bits, and each does what the instruction
with those bits cleared does. -/
theorem ignoredBitsHaveNoEffect : Obligations.IgnoredBitsHaveNoEffect := by
  intro w v s h
  obtain ⟨hrow, hclear⟩ := decode_of_agree (and_eq_and_of_xor_and_eq_zero h)
  refine ⟨hrow, ?_, fun hw => ?_⟩
  · rw [sameButInfo_iff, ← withoutInfo_exec_clearIgnored (decode_wellFormed w), ← hclear,
      withoutInfo_exec_clearIgnored (decode_wellFormed v)]
  · have hv : stopOf (decode v) s = none ∨ (decode v).row = .halt := by
      rwa [← stopOf_clearIgnored_eq_none, hclear, stopOf_clearIgnored_eq_none, hrow]
    rw [← exec_clearIgnored hw, ← hclear, exec_clearIgnored hv]

end Sys2Proof.Machine
end

section
/-! PROOFS. The cycle (40_cycle.md R70 to R76): what a step runs, when there is one, and how a run ends. -/

namespace Sys2Proof.Machine

/-- HALT updates no flags and stores nothing. -/
theorem flagDest_storeAddress_of_halt {i : Instr} (h : i.row = .halt) (s : State) :
    flagDest i = none ∧ storeAddress i s = none := by
  cases i with
  | halt => exact ⟨rfl, rfl⟩
  | _ => cases h

theorem State.endedNormally_iff (s : State) :
    s.endedNormally = true ↔ s.run = .halted ∧ s.cause = .haltTrap := by
  simp [State.endedNormally]

theorem State.not_endedNormally_of_running {s : State} (h : s.run = .running) : ¬s.endedNormally = true := by
  simp [State.endedNormally_iff, h]

/-- From RUNNING, HALT alone ends normally: the fatal stops have other causes, and every other effect leaves the machine
RUNNING. -/
theorem Effect.endedNormally_iff {i : Instr} {s t : State} (h : Effect s i t) (hrun : s.run = .running) :
    t.endedNormally = true ↔ i.row = .halt := by
  cases h with
  | halt => exact iff_of_true rfl rfl
  | flagWrite v hd =>
    refine iff_of_false (State.not_endedNormally_of_running hrun) fun hrow => ?_
    simp [(flagDest_storeAddress_of_halt hrow s).1] at hd
  | store v ha =>
    refine iff_of_false (State.not_endedNormally_of_running hrun) fun hrow => ?_
    simp [(flagDest_storeAddress_of_halt hrow s).2] at ha
  | rti | res | trap | getcFail | inpFail => simp [State.endedNormally_iff, Instr.row]
  | _ => exact iff_of_false (State.not_endedNormally_of_running hrun) Row.noConfusion

/-- Settles O51: a step is taken while RUNNING and makes the effect of the decoded instruction. -/
theorem normalEndOnlyByHalt : Obligations.NormalEndOnlyByHalt := fun _ _ h =>
  (step_effect h).endedNormally_iff (step_next h).1

/-- Settles O49: what is decoded is the word at PC. -/
theorem stepRunsDecodedInstruction : Obligations.StepRunsDecodedInstruction := by
  intro s i hrun hdecode _
  rw [step_running hrun, State.fetchWord, hdecode]
  rfl

theorem step_halted {s : State} (h : s.run = .halted) : step s = .fault (.notRunning s.cause) := by
  unfold step
  rw [h]

/-- The one fault of a console read is the call that never returns. -/
theorem State.consoleIn_fault {s : State} {ir : Word} {onByte : Byte → State → State} {f : Fault}
    (h : s.consoleIn ir onByte = .fault f) : f = .consoleInputNeverReturns s := by
  cases ha : s.nextAnswer with
  | byte => cases (State.consoleIn_of_byte ha).symm.trans h
  | fail => cases (State.consoleIn_of_fail ha).symm.trans h
  | never => cases (State.consoleIn_of_never ha).symm.trans h; rfl

/-- The one fault of a string service is the scan that never ends. -/
theorem State.writeString_fault {s : State} {bytesOf : Word → List Byte} {f : Fault}
    (h : s.writeString bytesOf = .fault f) :
    f = .stringScanNeverEnds s (scannedBytes bytesOf s.mem (s.readReg .r0) cellCount) := by
  cases hscan : scanString bytesOf s.mem cellCount (s.readReg .r0) with
  | some => cases (State.writeString_of_some hscan).symm.trans h
  | none => cases (State.writeString_of_none hscan).symm.trans h; rfl

/-- An instruction faults only where the core stays inside the step for ever (45_trap.md R129). -/
theorem exec_fault {i : Instr} {s : State} {f : Fault} (h : exec i s = .fault f) :
    (∃ u, f = .consoleInputNeverReturns u) ∨ ∃ u turn, f = .stringScanNeverEnds u turn := by
  obtain ⟨j, hwf, hij⟩ := exec_eq_exec_wellFormed i s
  rw [hij] at h
  cases j with
  | getc ign => exact .inl ⟨_, State.consoleIn_fault ((exec_getc ign s).symm.trans h)⟩
  | inp ign => exact .inl ⟨_, State.consoleIn_fault ((exec_inp ign s).symm.trans h)⟩
  | puts | putsp => exact .inr ⟨_, _, State.writeString_fault h⟩
  | trap ign v =>
    have hv : isServiceVector v = false := by simpa [Instr.WellFormed] using hwf
    cases (exec_trap_unknown ign v s hv).symm.trans h
  | _ => cases h

/-- Settles O50: a step from RUNNING is an execution, whose faults are the two of R129. -/
theorem haltedHasNoStep : Obligations.HaltedHasNoStep := by
  refine ⟨fun _ => step_halted, fun _ _ h => (step_next h).1, fun s c hrun h => ?_⟩
  rw [step_running hrun] at h
  obtain ⟨_, hf⟩ | ⟨_, _, hf⟩ := exec_fault h <;> cases hf

end Sys2Proof.Machine
end

section
/-! PROOFS. Arithmetic and logic (41_alu.md R80 to R84): the words of each row are read by `decode_of_mask`, and what each
instruction does is one flag-updating write, whose frame is proved once. -/

namespace Sys2Proof.Machine

/-- An instruction that does a flag-updating write and nothing else completes with the value in DR, COND set from it and
everything else as before. -/
theorem writesWithFlags_of_exec {i : Instr} {s : State} {dr : Reg} {v : Word}
    (h : exec i s = .next (s.setAndFlag dr v)) : WritesWithFlags i s dr v := by
  refine ⟨_, h, by simp, setccClassifiesEveryValue v, rfl, fun r hr => ?_, State.readMem_setAndFlag s dr v,
    ⟨rfl, rfl⟩, ⟨rfl, rfl, rfl⟩, ⟨rfl, rfl, rfl⟩⟩
  rw [State.readReg_setAndFlag, if_neg (List.ne_of_not_mem_cons hr)]

/-- The sum of two words is the sum of their values modulo 65,536 (41_alu.md R80, R81). -/
theorem add_eq_ofNat_mod (x y : Word) : x + y = BitVec.ofNat 16 ((x.toNat + y.toNat) % 65536) :=
  BitVec.eq_of_toNat_eq (by simp)

/-- The complement of a word is 0xFFFF minus its value (41_alu.md R84). -/
theorem not_eq_ofNat_sub (x : Word) : ~~~x = BitVec.ofNat 16 (65535 - x.toNat) :=
  BitVec.eq_of_toNat_eq (by rw [BitVec.toNat_not, BitVec.toNat_ofNat]; omega)

/-- Settles O11: the row's words read by its fields; the sum of the sources written with flags. -/
theorem addRegisterForm : Obligations.AddRegisterForm := by
  refine ⟨fun _ h => decode_of_mask (r := .addReg) h rfl, fun dr sr1 sr2 ign s => writesWithFlags_of_exec ?_⟩
  rw [exec_addReg, add_eq_ofNat_mod]

/-- Settles O12: the row's words read by its fields; the sum of SR1 and the extended immediate written with flags. -/
theorem addImmediateForm : Obligations.AddImmediateForm := by
  refine ⟨fun _ h => decode_of_mask (r := .addImm) h rfl, fun dr sr1 imm s => writesWithFlags_of_exec ?_⟩
  rw [exec_addImm, add_eq_ofNat_mod]

/-- Settles O13: the row's words read by its fields; the AND of the sources written with flags. -/
theorem andRegisterForm : Obligations.AndRegisterForm :=
  ⟨fun _ h => decode_of_mask (r := .andReg) h rfl,
    fun dr sr1 sr2 ign s => writesWithFlags_of_exec (exec_andReg dr sr1 sr2 ign s)⟩

/-- Settles O14: the row's words read by its fields; the AND of SR1 and the extended immediate written with flags. -/
theorem andImmediateForm : Obligations.AndImmediateForm :=
  ⟨fun _ h => decode_of_mask (r := .andImm) h rfl,
    fun dr sr1 imm s => writesWithFlags_of_exec (exec_andImm dr sr1 imm s)⟩

/-- Settles O15: the row's words read by its fields; the complement of the source written with flags. -/
theorem notComplementsRegister : Obligations.NotComplementsRegister := by
  refine ⟨fun _ h => decode_of_mask (r := .not) h rfl, fun dr sr ign s => writesWithFlags_of_exec ?_⟩
  rw [exec_not, not_eq_ofNat_sub]

end Sys2Proof.Machine
end

section
/-! PROOFS. Control transfer (42_control.md R90 to R93): each transfer sets PC, and JSR and JSRR write R7 before; what these
updates leave alone is said once for each of them. -/

namespace Sys2Proof.Machine

/-- A transfer that changes nothing, such as BR not taken. -/
theorem TransferFrame.refl (s : State) : TransferFrame [] s s :=
  ⟨fun _ _ => rfl, rfl, fun _ => rfl, ⟨rfl, rfl⟩, ⟨rfl, rfl, rfl⟩, ⟨rfl, rfl, rfl⟩⟩

/-- A plain write changes its register alone. -/
theorem TransferFrame.writeReg (s : State) (d : Reg) (v : Word) : TransferFrame [d] s (s.writeReg d v) := by
  refine ⟨fun r hr => ?_, rfl, fun _ => rfl, ⟨rfl, rfl⟩, ⟨rfl, rfl, rfl⟩, ⟨rfl, rfl, rfl⟩⟩
  rw [State.readReg_writeReg, if_neg (List.ne_of_not_mem_cons hr)]

/-- The frame of a transfer does not speak of PC. -/
theorem TransferFrame.setPc {ds : List Reg} {s t : State} (h : TransferFrame ds s t) (target : Word) :
    TransferFrame ds s (t.setPc target) := h

/-- BR's test by cases: some mask bit is 1 and COND is in that bit's state (42_control.md R90). -/
theorem branchTaken_iff (n z p : Bool) (c : Cond) :
    branchTaken n z p c = true ↔
      (n = true ∧ c = .negative) ∨ (z = true ∧ c = .zero) ∨ (p = true ∧ c = .positive) := by
  cases c <;> simp [branchTaken]

/-- Settles O16: the row's words read by its fields; taken, PC alone is set, and not taken, nothing is. -/
theorem branchFollowsCondition : Obligations.BranchFollowsCondition := by
  refine ⟨fun _ h => decode_of_mask (r := .br) h rfl, fun n z p off s => ⟨_, exec_br n z p off s, ?_⟩⟩
  rw [← branchTaken_iff]
  split
  · next htaken => exact ⟨fun _ => rfl, fun hnot => absurd htaken hnot, (TransferFrame.refl s).setPc _⟩
  · next hnot => exact ⟨fun htaken => absurd htaken hnot, fun _ => rfl, TransferFrame.refl s⟩

/-- Settles O17: the row's words read by its fields; PC alone is set. -/
theorem jumpGoesToBaseRegister : Obligations.JumpGoesToBaseRegister :=
  ⟨fun _ h => decode_of_mask (r := .jmp) h rfl,
    fun base ignHi ignLo s => ⟨_, exec_jmp base ignHi ignLo s, rfl, (TransferFrame.refl s).setPc _⟩⟩

/-- Settles O18: the row's words read by its fields; R7 is written, then PC is set. -/
theorem jsrLinksAndBranches : Obligations.JsrLinksAndBranches :=
  ⟨fun _ h => decode_of_mask (r := .jsr) h rfl,
    fun off s => ⟨_, exec_jsr off s, rfl, rfl, (TransferFrame.writeReg s .r7 s.pc).setPc _⟩⟩

/-- Settles O19: the row's words read by its fields; the base is read after the write of R7, so it is the value written
when it is R7 and the old content otherwise. -/
theorem jsrrLinksThenReadsBase : Obligations.JsrrLinksThenReadsBase := by
  refine ⟨fun _ h => decode_of_mask (r := .jsrr) h rfl, fun base ignHi ignLo s =>
    ⟨_, exec_jsrr base ignHi ignLo s, rfl, fun hbase => ?_, fun hbase => ?_,
      (TransferFrame.writeReg s .r7 s.pc).setPc _⟩⟩
  · rw [State.setPc_pc, State.readReg_writeReg, if_neg hbase]
  · rw [State.setPc_pc, State.readReg_writeReg, if_pos hbase]

/-- Settles O59: JSR leaves the return address in R7, and `JMP R7` goes to what R7 holds. -/
theorem jsrThenJmpR7Returns : Obligations.JsrThenJmpR7Returns := by
  intro off ignHi ignLo s u
  obtain ⟨t, hjsr, hlink, _⟩ := jsrLinksAndBranches.2 off s
  obtain ⟨v, hjmp, hpc, _⟩ := jumpGoesToBaseRegister.2 .r7 ignHi ignLo u
  refine ⟨t, hjsr, fun hkept => ⟨v, hjmp, ?_⟩⟩
  calc v.pc = u.readReg .r7 := hpc
    _ = t.readReg .r7 := hkept
    _ = s.pc := hlink

end Sys2Proof.Machine
end

section
/-! PROOFS. Loads (43_load.md R100 to R103): each is one flag-updating write, and the addresses are the model's operand
forms: PC-relative, indirect, base plus offset. -/

namespace Sys2Proof.Machine

/-- Settles O20: the row's words read by its fields; the PC-relative cell written with flags. -/
theorem ldLoadsPcRelative : Obligations.LdLoadsPcRelative :=
  ⟨fun _ h => decode_of_mask (r := .ld) h rfl, fun dr off s => writesWithFlags_of_exec (exec_ld dr off s)⟩

/-- Settles O21: the row's words read by its fields; the cell named by the PC-relative cell written with flags. -/
theorem ldiLoadsThroughPointer : Obligations.LdiLoadsThroughPointer :=
  ⟨fun _ h => decode_of_mask (r := .ldi) h rfl, fun dr off s => writesWithFlags_of_exec (exec_ldi dr off s)⟩

/-- Settles O22: the row's words read by its fields; the address is formed from the state before DR is written, so the
base is the old value also when it is DR. -/
theorem ldrLoadsBasePlusOffset : Obligations.LdrLoadsBasePlusOffset :=
  ⟨fun _ h => decode_of_mask (r := .ldr) h rfl, fun dr base off s => writesWithFlags_of_exec (exec_ldr dr base off s)⟩

/-- Settles O23: the row's words read by its fields; the PC-relative address itself written with flags, memory unread. -/
theorem leaFormsAddressAndSetsFlags : Obligations.LeaFormsAddressAndSetsFlags :=
  ⟨fun _ h => decode_of_mask (r := .lea) h rfl, fun dr off s => writesWithFlags_of_exec (exec_lea dr off s)⟩

end Sys2Proof.Machine
end

section
/-! PROOFS. Stores (44_store.md R110 to R112): each is one write of a cell, whose frame is proved once, and the addresses
are the model's operand forms, formed from the state before the write; and the round trip of STI and LDI. -/

namespace Sys2Proof.Machine

/-- An instruction that writes one cell of a canonical memory and nothing else completes with the word in that cell and
everything else as before. -/
theorem storesWord_of_exec {i : Instr} {s : State} {a v : Word} (hs : s.mem.wf = true)
    (h : exec i s = .next (s.writeMem a v)) : StoresWord i s a v := by
  refine ⟨_, h, ?_, fun b hb => ?_, rfl, rfl, fun _ _ => rfl, ⟨rfl, rfl⟩, ⟨rfl, rfl, rfl⟩, ⟨rfl, rfl, rfl⟩⟩
  · rw [State.readMem_writeMem hs, if_pos rfl]
  · rw [State.readMem_writeMem hs, if_neg hb]

/-- Settles O24: the row's words read by its fields; the PC-relative cell written. -/
theorem stStoresPcRelative : Obligations.StStoresPcRelative :=
  ⟨fun _ h => decode_of_mask (r := .st) h rfl, fun sr off s hs => storesWord_of_exec hs (exec_st sr off s)⟩

/-- Settles O25: the row's words read by its fields; the cell named by the PC-relative cell written, the pointer read
from the state before the write. -/
theorem stiStoresThroughPointer : Obligations.StiStoresThroughPointer :=
  ⟨fun _ h => decode_of_mask (r := .sti) h rfl, fun sr off s hs => storesWord_of_exec hs (exec_sti sr off s)⟩

/-- Settles O26: the row's words read by its fields; the base-plus-offset cell written. -/
theorem strStoresBasePlusOffset : Obligations.StrStoresBasePlusOffset :=
  ⟨fun _ h => decode_of_mask (r := .str) h rfl,
    fun sr base off s hs => storesWord_of_exec hs (exec_str sr base off s)⟩

/-- Settles O60: STI leaves PC and, since it is not the cell stored to, the pointer cell as they were, so that LDI goes
through the same pointer to the cell that STI wrote. -/
theorem stiThenLdiGivesValueBack : Obligations.StiThenLdiGivesValueBack := by
  intro sr dr off s hs hne
  obtain ⟨t, hsti, hcell, hmem, hpc, _⟩ := stiStoresThroughPointer.2 sr off s hs
  obtain ⟨u, hldi, hdr, _⟩ := ldiLoadsThroughPointer.2 dr off t
  refine ⟨t, u, hsti, hldi, ?_⟩
  have hpointer : t.readMem (s.pcRelative off) = s.indirect off := hmem _ hne.symm
  calc u.readReg dr = t.readMem (t.readMem (t.pc + sext16 off)) := hdr
    _ = t.readMem (t.readMem (s.pcRelative off)) := by rw [hpc, State.pcRelative]
    _ = t.readMem (s.indirect off) := by rw [hpointer]
    _ = s.readReg sr := hcell

end Sys2Proof.Machine
end

section
/-! PROOFS. TRAP and its services (45_trap.md R120 to R129): the frame of a trap is proved once for each update a service
makes, the string services once for every way of reading bytes from a cell. -/

namespace Sys2Proof.Machine

/-- Taking a trap links R7 and changes nothing else. -/
theorem TrapFrame.trapEnter (s : State) : TrapFrame [] s s.trapEnter := by
  refine ⟨by simp, fun r hr => ?_, rfl, rfl, fun _ => rfl, ⟨rfl, rfl, rfl⟩⟩
  rw [State.readReg_trapEnter, if_neg (List.ne_of_not_mem_cons hr)]

/-- The frame of a trap does not speak of the console trace. -/
theorem TrapFrame.consoleOut {ds : List Reg} {s t : State} (h : TrapFrame ds s t) (bs : List Byte) :
    TrapFrame ds s (t.consoleOut bs) := h

/-- The frame of a trap does not speak of the console input. -/
theorem TrapFrame.answered {ds : List Reg} {s t : State} (h : TrapFrame ds s t) : TrapFrame ds s t.answered := h

/-- The frame of a trap does not speak of the run flag and the stop reason. -/
theorem TrapFrame.stop {ds : List Reg} {s t : State} (h : TrapFrame ds s t) (c : Cause) (info : Word) :
    TrapFrame ds s (t.stop c info) := h

/-- A plain write of a register other than R7 adds that register to those the trap may change. -/
theorem TrapFrame.writeReg {ds : List Reg} {s t : State} (h : TrapFrame ds s t) {d : Reg} (hd : .r7 ≠ d) (v : Word) :
    TrapFrame (d :: ds) s (t.writeReg d v) := by
  obtain ⟨hlink, hregs, hrest⟩ := h
  refine ⟨?_, fun r hr => ?_, hrest⟩
  · rw [State.readReg_writeReg, if_neg hd, hlink]
  · simp only [List.mem_cons, not_or] at hr
    obtain ⟨hr7, hrd, hrds⟩ := hr
    rw [State.readReg_writeReg, if_neg hrd, hregs r (by simp [hr7, hrds])]

/-- A frame that lets no further register change lets any list of them change. -/
theorem TrapFrame.of_nil {s t : State} (h : TrapFrame [] s t) (ds : List Reg) : TrapFrame ds s t := by
  obtain ⟨hlink, hregs, hrest⟩ := h
  exact ⟨hlink, fun r hr => hregs r fun h7 => hr (List.mem_cons.2 (.inl (List.mem_singleton.1 h7))), hrest⟩

/- The dispatch (R120) and the unknown vector (R127) -/

/-- A word with opcode 1111 is read by its vector. -/
theorem decode_of_trap_opcode {w : Word} (h : w &&& 0xF000#16 = 0xF000#16) :
    decode w = decodeTrap (slice w 8 4) (slice w 0 8) := by
  have hop : slice w 12 4 = 0xF#4 := slice_opcode_of_mask h (by decide)
  rw [decode, hop]
  rfl

/-- No trap updates flags or stores. -/
theorem flagDest_storeAddress_of_trap {i : Instr} (h : i.row ∈ .trap :: serviceRows) (s : State) :
    flagDest i = none ∧ storeAddress i s = none := by
  cases i with
  | trap | getc | out | puts | inp | putsp | halt => exact ⟨rfl, rfl⟩
  | _ => simp [Instr.row, serviceRows] at h

/-- Every trap links R7 and leaves all else of the frame alone but, for GETC and IN, R0. What a service does to console,
run flag and stop reason is no part of the frame. -/
theorem Effect.trapFrame {i : Instr} {s t : State} (h : Effect s i t) (hrow : i.row ∈ .trap :: serviceRows) :
    TrapFrame [.r0] s t := by
  have henter := TrapFrame.trapEnter s
  cases h with
  | flagWrite _ hd => simp [(flagDest_storeAddress_of_trap hrow s).1] at hd
  | store _ ha => simp [(flagDest_storeAddress_of_trap hrow s).2] at ha
  | br | jmp | jsr | jsrr | rti | res => simp [Instr.row, serviceRows] at hrow
  | getcByte | inpByte => exact henter.writeReg (by decide) _
  | _ => exact henter.of_nil _

/-- Settles O27: a TRAP does what the decoder would read from its word, which is of the general row or a service. -/
theorem trapLinksAndDispatches : Obligations.TrapLinksAndDispatches := by
  refine ⟨fun _ => decode_of_trap_opcode, fun _ _ => ⟨rfl, rfl, rfl, rfl, rfl, rfl⟩, fun ign v s t h => ?_⟩
  have heffect : Effect s (decodeTrap ign v) t :=
    exec_effect (decodeTrap_wellFormed ign v) (exec_trap_eq_decodeTrap ign v s ▸ h)
  obtain ⟨hlink, _, hpc, hcond, _⟩ := heffect.trapFrame (decodeTrap_row_mem ign v)
  refine ⟨hlink, hpc, hcond, fun hv => ?_⟩
  cases (exec_trap_unknown ign v s hv).symm.trans h
  exact ⟨rfl, rfl, rfl⟩

/-- Settles O28: the row's words read by its fields; R7 linked, then the stop. -/
theorem unknownVectorStops : Obligations.UnknownVectorStops :=
  ⟨fun w h hv => decode_of_mask (r := .trap) h (by simp [Row.read, Instr.WellFormed, hv]),
    fun ign v s hv => ⟨_, exec_trap_unknown ign v s hv, ⟨rfl, rfl, rfl⟩, (TrapFrame.trapEnter s).stop _ _,
      rfl, rfl⟩⟩

/- Console input (R121, R124, R128) -/

/-- Settles O35: the call has returned, so the position has moved, and the machine is stopped as the call left it. -/
theorem consoleInputFailureStops : Obligations.ConsoleInputFailureStops := fun ign s hfail =>
  ⟨⟨_, exec_getc_of_fail ign hfail, ⟨rfl, rfl, rfl⟩, (TrapFrame.trapEnter s).answered.stop _ _, rfl, rfl⟩,
    ⟨_, exec_inp_of_fail ign hfail, ⟨rfl, rfl, rfl⟩,
      ((TrapFrame.trapEnter s).consoleOut _).answered.stop _ _, rfl, rfl⟩⟩

/-- Settles O29: the row's words read by its fields; one case per answer of the console. -/
theorem getcReadsByteIntoR0 : Obligations.GetcReadsByteIntoR0 := by
  refine ⟨fun _ h => decode_of_mask (r := .getc) h rfl, fun ign s c hbyte => ?_, fun ign s hfail => ?_,
    fun ign s t hnever h => ?_⟩
  · exact ⟨_, exec_getc_of_byte ign hbyte, toNat_zext16 c, (TrapFrame.trapEnter s).answered.writeReg (by decide) _,
      rfl, rfl, rfl, rfl, rfl⟩
  · obtain ⟨⟨t, hexec, hstop, hframe, hout, _⟩, _⟩ := consoleInputFailureStops ign s hfail
    exact ⟨t, hexec, hstop, hframe, hout⟩
  · cases (exec_getc_of_never ign hnever).symm.trans h

/-- Settles O32: the row's words read by its fields; one case per answer of the console. -/
theorem inPromptsReadsAndEchoes : Obligations.InPromptsReadsAndEchoes := by
  refine ⟨fun _ h => decode_of_mask (r := .inp) h rfl, fun ign s c hbyte => ?_, fun ign s hfail => ?_,
    fun ign s t hnever h => ?_⟩
  · exact ⟨_, exec_inp_of_byte ign hbyte, toNat_zext16 c,
      (((TrapFrame.trapEnter s).consoleOut _).answered.consoleOut _).writeReg (by decide) _,
      rfl, rfl, rfl, rfl, rfl⟩
  · obtain ⟨_, t, hexec, hstop, hframe, hout, _⟩ := consoleInputFailureStops ign s hfail
    exact ⟨t, hexec, hstop, hframe, hout⟩
  · cases (exec_inp_of_never ign hnever).symm.trans h

/- Console output of OUT and HALT (R122, R126) -/

/-- Bits 7:0 of a word are its value modulo 256. -/
theorem lowByte_eq_ofNat_mod (w : Word) : lowByte w = BitVec.ofNat 8 (w.toNat % 256) :=
  BitVec.eq_of_toNat_eq (by simp [lowByte])

/-- Settles O30: the row's words read by its fields; R0 is not the linked register, so its old value is written. -/
theorem outWritesLowByte : Obligations.OutWritesLowByte := by
  refine ⟨fun _ h => decode_of_mask (r := .out) h rfl, fun ign s =>
    ⟨_, exec_out ign s, ?_, (TrapFrame.trapEnter s).consoleOut _, rfl, rfl, rfl, rfl⟩⟩
  rw [← lowByte_eq_ofNat_mod]
  rfl

/-- Settles O34: the row's words read by its fields; R7 linked, the notice written, then the stop. -/
theorem haltWritesNoticeAndStops : Obligations.HaltWritesNoticeAndStops :=
  ⟨fun _ h => decode_of_mask (r := .halt) h rfl, fun ign s =>
    ⟨_, exec_halt ign s, rfl, ⟨rfl, rfl, rfl⟩, ((TrapFrame.trapEnter s).consoleOut _).stop _ _, rfl⟩⟩

/- The string services (R123, R125) -/

/-- A string service with the first zero cell `k` cells above R0 appends the bytes of the `k` cells before it and, but for
the link in R7, changes nothing else. -/
theorem trapEnter_writeString_of_first_zero (bytesOf : Word → List Byte) {s : State} {k : Nat} (hk : k < 65536)
    (hne : ∀ j < k, s.readMem (s.readReg .r0 + BitVec.ofNat 16 j) ≠ 0x0000#16)
    (hzero : s.readMem (s.readReg .r0 + BitVec.ofNat 16 k) = 0x0000#16) :
    ∃ t, s.trapEnter.writeString bytesOf = .next t ∧
      t.out = s.out ++ (List.range k).flatMap (fun j => bytesOf (s.readMem (s.readReg .r0 + BitVec.ofNat 16 j))) ∧
      TrapFrame [] s t ∧ t.inputPos = s.inputPos ∧ RunSame s t :=
  ⟨_, State.writeString_of_some (scanString_first_zero bytesOf s.mem k cellCount (s.readReg .r0) hk hne hzero), rfl,
    (TrapFrame.trapEnter s).consoleOut _, rfl, rfl, rfl, rfl⟩

/-- A string service completes exactly when some cell of memory is zero: the scan meets every cell. -/
theorem State.writeString_completes_iff (bytesOf : Word → List Byte) (s : State) :
    (∃ t, s.writeString bytesOf = .next t) ↔ ∃ a, s.readMem a = 0x0000#16 := by
  constructor
  · rintro ⟨t, h⟩
    obtain ⟨bs, hscan, _⟩ := State.writeString_next h
    by_contra hno
    rw [scanString_no_zero bytesOf s.mem (not_exists.1 hno)] at hscan
    cases hscan
  · rintro ⟨z, hz⟩
    obtain ⟨k, hk, hne, hzero⟩ := Memory.first_zero_from s.mem (s.readReg .r0) z hz
    exact ⟨_, State.writeString_of_some (scanString_first_zero bytesOf s.mem k cellCount _ hk hne hzero)⟩

/-- Settles O31: the row's words read by its fields; PUTS is the string service that takes one byte from a cell. -/
theorem putsWritesStringToZeroCell : Obligations.PutsWritesStringToZeroCell := by
  refine ⟨fun _ h => decode_of_mask (r := .puts) h rfl, fun ign s k hk hne hzero => ?_,
    fun ign s => State.writeString_completes_iff putsBytes s.trapEnter⟩
  rw [exec_puts, List.map_eq_flatMap]
  exact trapEnter_writeString_of_first_zero putsBytes hk hne hzero

/-- The bytes of a packed cell, the low one first and always (R125). -/
theorem putspBytes_eq_cons (w : Word) :
    putspBytes w = lowByte w :: (if highByte w = 0x00#8 then [] else [highByte w]) := by
  unfold putspBytes
  split <;> rfl

/-- Settles O33: the row's words read by its fields; PUTSP is the string service that takes one or two bytes from a
cell. -/
theorem putspWritesPackedString : Obligations.PutspWritesPackedString := by
  refine ⟨fun _ h => decode_of_mask (r := .putsp) h rfl, fun ign s k hk hne hzero => ?_,
    fun ign s => State.writeString_completes_iff putspBytes s.trapEnter⟩
  simp only [exec_putsp, ← putspBytes_eq_cons]
  exact trapEnter_writeString_of_first_zero putspBytes hk hne hzero

/- Services that do not finish (R129) -/

/-- After `n` passes over memory the bytes of one pass have been written `n` times. -/
theorem scannedBytes_mul_cellCount (bytesOf : Word → List Byte) (m : Memory) (a : Word) : ∀ n,
    scannedBytes bytesOf m a (n * cellCount) = (List.replicate n (scannedBytes bytesOf m a cellCount)).flatten
  | 0 => by rw [Nat.zero_mul, scannedBytes_zero, List.replicate_zero, List.flatten_nil]
  | n + 1 => by
    rw [Nat.succ_mul, Nat.add_comm, scannedBytes_add_cellCount, scannedBytes_mul_cellCount bytesOf m a n,
      List.replicate_succ, List.flatten_cons]

/-- The state in which a string service begins its scan is one from which, cell by cell and pass by pass, its output grows
without end, when each cell gives at least one byte. -/
theorem scansForEver_trapEnter {bytesOf : Word → List Byte} (hbytes : ∀ w, 1 ≤ (bytesOf w).length) (s : State) :
    ScansForEver bytesOf s s.trapEnter (scannedBytes bytesOf s.mem (s.readReg .r0) cellCount) := by
  have hout (n : Nat) :
      (s.trapEnter.scanned bytesOf n).out = s.out ++ scannedBytes bytesOf s.mem (s.readReg .r0) n := rfl
  refine ⟨TrapFrame.trapEnter s, ⟨rfl, rfl⟩, ⟨rfl, rfl, rfl⟩, rfl, ?_, fun n => ?_, fun n => ?_, fun n => ?_⟩
  · rw [hout, scannedBytes_zero, List.append_nil]
  · rw [hout, hout, scannedBytes_succ, List.append_assoc]
    rfl
  · rw [hout, List.length_append]
    exact Nat.add_le_add_left (le_length_scannedBytes hbytes s.mem _ n) _
  · rw [hout]
    exact congrArg (s.out ++ ·) (scannedBytes_mul_cellCount bytesOf s.mem _ n)

/-- A string service over a memory with no zero cell is the fault that carries the linked state and the bytes of one
pass. -/
theorem trapEnter_writeString_of_no_zero (bytesOf : Word → List Byte) {s : State}
    (h : ∀ a, s.readMem a ≠ 0x0000#16) :
    s.trapEnter.writeString bytesOf =
      .fault (.stringScanNeverEnds s.trapEnter (scannedBytes bytesOf s.mem (s.readReg .r0) cellCount)) :=
  State.writeString_of_none (s := s.trapEnter) (scanString_no_zero bytesOf s.mem h cellCount _)

/-- Settles O36: a call that never returns leaves the machine as the trap, and for IN the prompt, left it; a scan that
meets no zero cell never ends. -/
theorem unfinishedServicesHaveNoNextState : Obligations.UnfinishedServicesHaveNoNextState := by
  constructor
  · intro ign s hnever
    obtain ⟨hlink, hregs, _⟩ := TrapFrame.trapEnter s
    exact ⟨⟨_, exec_getc_of_never ign hnever, rfl, hlink, hregs, rfl, rfl, rfl⟩,
      ⟨_, exec_inp_of_never ign hnever, rfl, hlink, hregs, rfl, rfl, rfl⟩⟩
  · intro ign s hnz
    exact ⟨⟨_, _, (exec_puts ign s).trans (trapEnter_writeString_of_no_zero putsBytes hnz),
        scansForEver_trapEnter (fun w => (length_putsBytes w).ge) s⟩,
      ⟨_, _, (exec_putsp ign s).trans (trapEnter_writeString_of_no_zero putspBytes hnz),
        scansForEver_trapEnter one_le_length_putspBytes s⟩⟩

end Sys2Proof.Machine
end

section
/-! PROOFS. Reserved opcodes (46_reserved.md R140, R141): the words of each row are read by `decode_of_mask`, and what a
bare stop changes is proved once. -/

namespace Sys2Proof.Machine

/-- An instruction that stops the machine and does nothing else sets the run flag and the stop reason, and everything
else is as before. -/
theorem stopsOnly_of_exec {i : Instr} {s : State} {c : Cause} {info : Word} (h : exec i s = .next (s.stop c info)) :
    ∃ t, exec i s = .next t ∧ StoppedWith c info t ∧ t.pc = s.pc ∧ t.cond = s.cond ∧ RegsSameExcept [] s t ∧
      MemSame s t ∧ ConsoleSame s t ∧ ParamsSame s t :=
  ⟨_, h, ⟨State.stop_run .., State.stop_cause .., State.stop_causeInfo ..⟩, State.stop_pc .., State.stop_cond ..,
    fun r _ => State.readReg_stop s c info r, State.readMem_stop s c info, ⟨State.stop_out .., State.stop_inputPos ..⟩,
    ⟨State.stop_inPrompt .., State.stop_haltNotice .., State.stop_answers ..⟩⟩

/-- Settles O37: the row's words read by its fields; the word put together again is the one recorded by the stop. -/
theorem rtiStopsWithReservedOpcode : Obligations.RtiStopsWithReservedOpcode :=
  ⟨fun _ h => decode_of_mask (r := .rti) h rfl, fun ign s => stopsOnly_of_exec (exec_rti ign s)⟩

/-- Settles O38: the row's words read by its fields; the word put together again is the one recorded by the stop. -/
theorem resStopsWithReservedOpcode : Obligations.ResStopsWithReservedOpcode :=
  ⟨fun _ h => decode_of_mask (r := .res) h rfl, fun ign s => stopsOnly_of_exec (exec_res ign s)⟩

end Sys2Proof.Machine
end

section
/-! PROOFS. Stops (60_exceptions.md R151, 10_state.md R19, R20): the transitions to HALTED are the listed ones, and only the
services that wait (45_trap.md R129) can be without a next state. -/

namespace Sys2Proof.Machine

/-- GETC and IN do not stop when the console gives a byte. -/
theorem stopOf_of_byte {i : Instr} {s : State} {c : Byte} (hrow : i.row = .getc ∨ i.row = .inp)
    (h : s.nextAnswer = .byte c) : stopOf i s = none := by
  cases i with
  | getc | inp => simp [stopOf, h]
  | _ => simp [Instr.row] at hrow

/-- GETC and IN stop, with their own word recorded, when the console gives FAIL. -/
theorem stopOf_of_fail {i : Instr} {s : State} (hrow : i.row = .getc ∨ i.row = .inp) (h : s.nextAnswer = .fail) :
    stopOf i s = some (.consoleInputFailure, encode i) := by
  cases i with
  | getc | inp => simp [stopOf, h]
  | _ => simp [Instr.row] at hrow

/-- Settles O44: GETC and IN by the answer they got; the other stops record what `stopOf` lists, and the remaining
instructions update neither the run flag nor the stop reason. -/
theorem stopsExactlyWhenListed : Obligations.StopsExactlyWhenListed := by
  refine ⟨rfl, fun i s t hwf h => ?_⟩
  cases i with
  | getc =>
    obtain ⟨c, hbyte, rfl⟩ | ⟨hfail, rfl⟩ := exec_getc_next h
    · rw [stopOf_of_byte (.inl rfl) hbyte]
      exact ⟨rfl, rfl, rfl⟩
    · rw [stopOf_of_fail (.inl rfl) hfail]
      exact ⟨rfl, rfl, rfl⟩
  | inp =>
    obtain ⟨c, hbyte, rfl⟩ | ⟨hfail, rfl⟩ := exec_inp_next h
    · rw [stopOf_of_byte (.inr rfl) hbyte]
      exact ⟨rfl, rfl, rfl⟩
    · rw [stopOf_of_fail (.inr rfl) hfail]
      exact ⟨rfl, rfl, rfl⟩
  | trap ign v =>
    have hv : isServiceVector v = false := by simpa [Instr.WellFormed] using hwf
    cases (exec_trap_unknown ign v s hv).symm.trans h
    exact ⟨rfl, rfl, rfl⟩
  | puts => obtain ⟨_, _, rfl⟩ := exec_puts_next h; exact ⟨rfl, rfl, rfl⟩
  | putsp => obtain ⟨_, _, rfl⟩ := exec_putsp_next h; exact ⟨rfl, rfl, rfl⟩
  | br =>
    cases h
    change RunSame s _
    split <;> exact ⟨rfl, rfl, rfl⟩
  | _ => cases h; exact ⟨rfl, rfl, rfl⟩

/-- A console read completes unless the call never returns. -/
theorem State.consoleIn_completes_or (s : State) (ir : Word) (onByte : Byte → State → State) :
    (∃ t, s.consoleIn ir onByte = .next t) ∨ s.nextAnswer = .never := by
  cases hanswer : s.nextAnswer with
  | byte => exact .inl ⟨_, State.consoleIn_of_byte hanswer⟩
  | fail => exact .inl ⟨_, State.consoleIn_of_fail hanswer⟩
  | never => exact .inr rfl

/-- A string service completes unless no cell of memory is zero. -/
theorem State.writeString_completes_or (bytesOf : Word → List Byte) (s : State) :
    (∃ t, s.writeString bytesOf = .next t) ∨ ∀ a, s.readMem a ≠ 0x0000#16 := by
  rw [State.writeString_completes_iff, ← not_exists]
  exact em _

/-- Settles O48: GETC and IN wait for the console, PUTS and PUTSP for a zero cell; each other instruction has one next state
from every state. -/
theorem everyInstructionCompletesUnlessItWaits : Obligations.EveryInstructionCompletesUnlessItWaits := by
  intro i s hwf
  cases i with
  | getc =>
    rw [exec_getc]
    exact (State.consoleIn_completes_or s.trapEnter _ _).imp_right fun h => .inl ⟨.inl rfl, h⟩
  | inp =>
    rw [exec_inp]
    exact (State.consoleIn_completes_or (s.trapEnter.consoleOut s.inPrompt) _ _).imp_right fun h =>
      .inl ⟨.inr rfl, h⟩
  | puts =>
    rw [exec_puts]
    exact (State.writeString_completes_or putsBytes s.trapEnter).imp_right fun h => .inr ⟨.inl rfl, h⟩
  | putsp =>
    rw [exec_putsp]
    exact (State.writeString_completes_or putspBytes s.trapEnter).imp_right fun h => .inr ⟨.inr rfl, h⟩
  | trap ign v => exact .inl ⟨_, exec_trap_unknown ign v s (by simpa [Instr.WellFormed] using hwf)⟩
  | _ => exact .inl ⟨_, rfl⟩

end Sys2Proof.Machine
end

section
/-! PROOFS. The loader boundary (70_reset_and_hazards.md R171): what a cell reads after an image is placed. -/

namespace Sys2Proof.Machine

/-- A cell that no word of the image is placed in keeps its content. -/
theorem Memory.read_writeWords_of_outside {a : Word} : ∀ (ws : List Word) {m : Memory} {origin : Word}, m.wf = true →
    (∀ k < ws.length, a ≠ origin + BitVec.ofNat 16 k) → (m.writeWords origin ws).read a = m.read a
  | [], _, _, _, _ => rfl
  | w :: ws, m, origin, hm, hout => by
    have hfirst : a ≠ origin := by simpa using hout 0 (Nat.succ_pos _)
    have hrest : ∀ k < ws.length, a ≠ origin + 1#16 + BitVec.ofNat 16 k := fun k hk =>
      cell_succ origin k ▸ hout (k + 1) (Nat.succ_lt_succ hk)
    calc ((m.write origin w).writeWords (origin + 1#16) ws).read a
        = (m.write origin w).read a := read_writeWords_of_outside ws (wf_write m origin w hm) hrest
      _ = m.read a := by rw [memoryReadAfterWrite m origin w a hm, if_neg hfirst]

/-- The address does not come round to where it began within the cells of memory. -/
theorem ne_add_ofNat_succ (a : Word) {k : Nat} (hk : k + 1 < 65536) : a ≠ a + BitVec.ofNat 16 (k + 1) := by
  intro h
  have hzero : BitVec.ofNat 16 (k + 1) = 0#16 := BitVec.self_eq_add_right.1 h
  have hmod : (k + 1) % 65536 = 0 := congrArg BitVec.toNat hzero
  omega

/-- Cell `origin + k` holds word `k` of an image of at most 65,536 words: no later word is placed in the same cell. -/
theorem Memory.read_writeWords : ∀ (ws : List Word) {m : Memory} {origin : Word}, m.wf = true → ws.length ≤ 65536 →
    ∀ (k : Nat) (hk : k < ws.length), (m.writeWords origin ws).read (origin + BitVec.ofNat 16 k) = ws[k]
  | w :: ws, m, origin, hm, hlen, 0, _ => by
    rw [List.length_cons] at hlen
    have hrest : ∀ k < ws.length, origin ≠ origin + 1#16 + BitVec.ofNat 16 k := fun k hk =>
      cell_succ origin k ▸ ne_add_ofNat_succ origin (by omega)
    calc ((m.write origin w).writeWords (origin + 1#16) ws).read (origin + 0#16)
        = ((m.write origin w).writeWords (origin + 1#16) ws).read origin := by rw [BitVec.add_zero]
      _ = (m.write origin w).read origin := read_writeWords_of_outside ws (wf_write m origin w hm) hrest
      _ = w := by rw [memoryReadAfterWrite m origin w origin hm, if_pos rfl]
  | w :: ws, m, origin, hm, hlen, k + 1, hk => by
    rw [cell_succ]
    exact read_writeWords ws (wf_write m origin w hm) (Nat.le_of_succ_le hlen) k (Nat.lt_of_succ_lt_succ hk)

/-- Settles O58: the loader writes memory alone, and an image that fits has at most 65,536 words. -/
theorem loaderPlacesImage : Obligations.LoaderPlacesImage := by
  intro s origin ws hs
  refine ⟨fun hfits => ⟨_, if_pos hfits, ?_, fun a hout => ?_, Memory.wf_writeWords ws s.mem origin hs, rfl⟩,
    fun hlong => if_neg (Nat.not_le.2 hlong)⟩
  · exact Memory.read_writeWords ws hs (Nat.le_of_add_left_le hfits)
  · exact Memory.read_writeWords_of_outside ws hs hout

end Sys2Proof.Machine
end
